-- ==== Sys2Proof/Word.lean ====
section
/-! DEFINITION. The machine's word types (spec/00_scope.md section 5.1). -/

namespace Sys2Proof

/-- A byte: every general register, memory cell, opcode, operand byte and the flags register (00_scope.md
5.1, 10_state.md R9, R13; 20_memory.md R25). -/
abbrev Byte := BitVec 8

/-- The unsigned 9-bit quantities `pc` and `sp` (00_scope.md 5.1, 10_state.md R11, R12). -/
abbrev Ptr := BitVec 9

end Sys2Proof
end

