-- ==== Sys2Proof/Config.lean ====
section
/-! DEFINITION. What is fixed for a machine: its fifteen mnemonics, the four instruction formats, the numbers the
spec fixes, and the type of the spec's one open parameter of the decoder, `OPCODE` (00_scope.md R5 to R7).
The default value of `OPCODE` stands in Sys2Proof/Decode.lean. -/

namespace Sys2Proof

/-- The fifteen mnemonics, in the order of the opcode map (30_encoding.md R45). -/
inductive Mnemonic where
  | ldi | prn | mult | add | inc | dec | push | pop | call | ret | cmp | jmp | jeq | jne | hlt
deriving DecidableEq, Repr

/-- The four instruction formats (30_encoding.md R42). -/
inductive Format where
  /-- no operand: HLT, RET -/
  | n
  /-- one register -/
  | r
  /-- two registers: MULT, ADD, CMP -/
  | rr
  /-- register and immediate: LDI -/
  | ri
deriving DecidableEq, Repr

/-- The parameter `OPCODE`: a table from mnemonics to opcode bytes (00_scope.md R7). -/
abbrev OpcodeMap := Mnemonic → Byte

/-- What the spec asks of `OPCODE`: no two mnemonics share a byte (30_encoding.md R45). -/
def OpcodeMap.Injective (opc : OpcodeMap) : Prop := ∀ m n, opc m = opc n → m = n

namespace Config

/-- Number of memory cells, addresses 0 to 255 (00_scope.md R5, 20_memory.md R25). -/
def memSize : Nat := 256

/-- Number of general registers (00_scope.md R5, 10_state.md R9). -/
def numRegs : Nat := 8

/-- `PC_RESET` (00_scope.md R5, 10_state.md R24). -/
def pcReset : Ptr := 0

/-- `SP_RESET` (00_scope.md R5, 10_state.md R24). -/
def spReset : Ptr := 0xF4

/-- `FL_RESET` (00_scope.md R5, 10_state.md R24). -/
def flReset : Byte := 0x00

/-- Reset value of every general register (10_state.md R9, R24). UNVERIFIED, unsafe: the spec's own decision D10 (log 7). -/
def regReset : Byte := 0x00

end Config

end Sys2Proof
end

