-- ==== Sys2Proof/Syntax.lean ====
section
/-! DEFINITION. The instructions as syntax: one constructor for each row of spec/opcode_table.json. -/

namespace Sys2Proof

/-- An instruction with its operand bytes as fetched (30_encoding.md R42, 40_dispatch_cycle.md R53: "execute m with
(b1, b2)"). A register operand is the WHOLE byte: the spec fetches it, and only then checks that it is 0..7
(R44, R57), recording the byte in the error where it is not, so the check is part of the meaning (log 9). -/
inductive Instr where
  | ldi  (reg imm : Byte)
  | prn  (reg : Byte)
  | mult (regA regB : Byte)
  | add  (regA regB : Byte)
  | inc  (reg : Byte)
  | dec  (reg : Byte)
  | push (reg : Byte)
  | pop  (reg : Byte)
  | call (reg : Byte)
  | ret
  | cmp  (regA regB : Byte)
  | jmp  (reg : Byte)
  | jeq  (reg : Byte)
  | jne  (reg : Byte)
  | hlt
deriving DecidableEq, Repr

/-- The format of each mnemonic (30_encoding.md R42). -/
def Mnemonic.format : Mnemonic → Format
  | .ldi => .ri
  | .mult | .add | .cmp => .rr
  | .prn | .inc | .dec | .push | .pop | .call | .jmp | .jeq | .jne => .r
  | .ret | .hlt => .n

/-- The number of operand bytes of a format (30_encoding.md R42). -/
def Format.operandCount : Format → Nat
  | .n => 0
  | .r => 1
  | .rr => 2
  | .ri => 2

/-- The number of operand bytes of an instruction (30_encoding.md R41, R47). -/
def Mnemonic.operandCount (m : Mnemonic) : Nat := m.format.operandCount

/-- An instruction's length in bytes: one opcode byte and its operand bytes (30_encoding.md R41). -/
def Mnemonic.length (m : Mnemonic) : Nat := m.operandCount + 1

/-- The mnemonic of an instruction. -/
def Instr.mnemonic : Instr → Mnemonic
  | .ldi _ _  => .ldi
  | .prn _    => .prn
  | .mult _ _ => .mult
  | .add _ _  => .add
  | .inc _    => .inc
  | .dec _    => .dec
  | .push _   => .push
  | .pop _    => .pop
  | .call _   => .call
  | .ret      => .ret
  | .cmp _ _  => .cmp
  | .jmp _    => .jmp
  | .jeq _    => .jeq
  | .jne _    => .jne
  | .hlt      => .hlt

/-- The operand bytes in ascending address order, the first at `pc + 1` (30_encoding.md R42, R50). -/
def Instr.operands : Instr → List Byte
  | .ldi r i  => [r, i]
  | .prn r    => [r]
  | .mult a b => [a, b]
  | .add a b  => [a, b]
  | .inc r    => [r]
  | .dec r    => [r]
  | .push r   => [r]
  | .pop r    => [r]
  | .call r   => [r]
  | .ret      => []
  | .cmp a b  => [a, b]
  | .jmp r    => [r]
  | .jeq r    => [r]
  | .jne r    => [r]
  | .hlt      => []

/-- The operand bytes that name a register, the first at `pc + 1`: all of them but LDI's immediate
(30_encoding.md R43, R44). -/
def Instr.regOperands : Instr → List Byte
  | .ldi r _  => [r]
  | .prn r    => [r]
  | .mult a b => [a, b]
  | .add a b  => [a, b]
  | .inc r    => [r]
  | .dec r    => [r]
  | .push r   => [r]
  | .pop r    => [r]
  | .call r   => [r]
  | .ret      => []
  | .cmp a b  => [a, b]
  | .jmp r    => [r]
  | .jeq r    => [r]
  | .jne r    => [r]
  | .hlt      => []

/-- The length of an instruction in bytes (30_encoding.md R41). -/
def Instr.length (i : Instr) : Nat := i.mnemonic.length

end Sys2Proof
end

