-- ==== Sys2Proof/WellFormed.lean ====
section
/-! DEFINITION. Which instructions are well formed: those whose register operands name one of the eight general
registers (30_encoding.md R44). An immediate has no illegal value (R43). -/

namespace Sys2Proof

/-- A byte that names a general register: 0 to 7 (30_encoding.md R44). -/
def Byte.namesReg (b : Byte) : Bool := decide (b.toNat < Config.numRegs)

/-- Every register operand names a register. An instruction that is not well formed still decodes; its meaning raises
RegisterIndexError (60_exceptions.md R86). -/
def Instr.wellFormed (i : Instr) : Bool := i.regOperands.all Byte.namesReg

end Sys2Proof
end

