-- ==== Sys2Proof/Decode.lean ====
section
/-! DEFINITION. The decoder, total on any bytes and rejecting by name, and after it the encoder. Both are written over
the parameter `OPCODE` (30_encoding.md R45: "with any injective table, decoding is: the mnemonic whose value equals
the fetched byte, or none"); the default table of R45 stands here too. -/

namespace Sys2Proof

/-- The default value of the parameter `OPCODE` (30_encoding.md R45, spec/opcode_table.json).
UNVERIFIED, unsafe: the spec gives the byte values and marks them "from general knowledge, not in source" (log 1). -/
def defaultOpcode : OpcodeMap
  | .ldi  => 0x82
  | .prn  => 0x47
  | .mult => 0xA2
  | .add  => 0xA0
  | .inc  => 0x65
  | .dec  => 0x66
  | .push => 0x45
  | .pop  => 0x46
  | .call => 0x50
  | .ret  => 0x11
  | .cmp  => 0xA7
  | .jmp  => 0x54
  | .jeq  => 0x55
  | .jne  => 0x56
  | .hlt  => 0x01

/-- All mnemonics, in the order of the opcode map (30_encoding.md R45). -/
def allMnemonics : List Mnemonic :=
  [.ldi, .prn, .mult, .add, .inc, .dec, .push, .pop, .call, .ret, .cmp, .jmp, .jeq, .jne, .hlt]

/-- The mnemonic whose `OPCODE` value is the byte, or none (30_encoding.md R45, R47; 40_dispatch_cycle.md R55). -/
def opcodeLookup (opc : OpcodeMap) (op : Byte) : Option Mnemonic :=
  allMnemonics.find? (fun m => opc m == op)

/-- Read the operand bytes an instruction has, the first at offset 1 and then the second at offset 2, and put them
into the instruction (30_encoding.md R42; 40_dispatch_cycle.md R56). -/
def decodeOperands {ε : Type} (byteAt : Nat → Except ε Byte) : Mnemonic → Except ε Instr
  | .ldi  => do let r ← byteAt 1; let i ← byteAt 2; return .ldi r i
  | .prn  => do let r ← byteAt 1; return .prn r
  | .mult => do let a ← byteAt 1; let b ← byteAt 2; return .mult a b
  | .add  => do let a ← byteAt 1; let b ← byteAt 2; return .add a b
  | .inc  => do let r ← byteAt 1; return .inc r
  | .dec  => do let r ← byteAt 1; return .dec r
  | .push => do let r ← byteAt 1; return .push r
  | .pop  => do let r ← byteAt 1; return .pop r
  | .call => do let r ← byteAt 1; return .call r
  | .ret  => return .ret
  | .cmp  => do let a ← byteAt 1; let b ← byteAt 2; return .cmp a b
  | .jmp  => do let r ← byteAt 1; return .jmp r
  | .jeq  => do let r ← byteAt 1; return .jeq r
  | .jne  => do let r ← byteAt 1; return .jne r
  | .hlt  => return .hlt

/-- Stages (1) to (3) of the step, over any source of bytes (`byteAt k` is the byte `k` places after the opcode): read
the opcode byte, look it up, read its operand bytes (40_dispatch_cycle.md R53 to R56). The one decoder of the model: on a
list of bytes it is `decode`, on the machine's memory `Machine.fetchInstr`. -/
def decodeFrom {ε : Type} (opc : OpcodeMap) (byteAt : Nat → Except ε Byte) (illegal : Byte → ε) :
    Except ε Instr := do
  let op ← byteAt 0
  match opcodeLookup opc op with
  | some m => decodeOperands byteAt m
  | none   => throw (illegal op)

/-- Why a list of bytes is not an instruction. -/
inductive DecodeError where
  /-- there is no byte at all -/
  | noOpcodeByte
  /-- the first byte is the opcode of no instruction (30_encoding.md R48) -/
  | illegalOpcode (op : Byte)
  /-- operand byte `k` (1 or 2) of a known instruction is missing (30_encoding.md R41) -/
  | noOperandByte (k : Nat)
deriving DecidableEq, Repr

/-- The byte `k` places into a list. -/
def listByte (bytes : List Byte) (k : Nat) : Except DecodeError Byte :=
  match bytes[k]? with
  | some b => return b
  | none   => throw (if k = 0 then .noOpcodeByte else .noOperandByte k)

/-- Decode the instruction a list of bytes begins with; what follows it is not read. -/
def decodeWith (opc : OpcodeMap) (bytes : List Byte) : Except DecodeError Instr :=
  decodeFrom opc (listByte bytes) .illegalOpcode

/-- The decoder under the default opcode table. -/
def decode (bytes : List Byte) : Except DecodeError Instr := decodeWith defaultOpcode bytes

/-- The bytes of an instruction: its opcode byte, then its operand bytes in order (30_encoding.md R42, R50). -/
def encodeWith (opc : OpcodeMap) : Instr → List Byte
  | .ldi r i  => [opc .ldi, r, i]
  | .prn r    => [opc .prn, r]
  | .mult a b => [opc .mult, a, b]
  | .add a b  => [opc .add, a, b]
  | .inc r    => [opc .inc, r]
  | .dec r    => [opc .dec, r]
  | .push r   => [opc .push, r]
  | .pop r    => [opc .pop, r]
  | .call r   => [opc .call, r]
  | .ret      => [opc .ret]
  | .cmp a b  => [opc .cmp, a, b]
  | .jmp r    => [opc .jmp, r]
  | .jeq r    => [opc .jeq, r]
  | .jne r    => [opc .jne, r]
  | .hlt      => [opc .hlt]

/-- The encoder under the default opcode table. -/
def encode (i : Instr) : List Byte := encodeWith defaultOpcode i

/-- The three bytes of a word numbered as spec/opcode_table.json numbers it: bits 7:0 are the byte at the lowest
address; the bits from `nbits` up are 0. Three is the longest instruction (30_encoding.md R41). -/
def tableBytes (nbits w : Nat) : List Byte :=
  [0, 1, 2].map fun k => BitVec.ofNat 8 (w % 2 ^ nbits / 256 ^ k)

/-- The instruction the decoder reads from a word of the opcode table. -/
def decodeTableWord (nbits w : Nat) : Option Instr := (decode (tableBytes nbits w)).toOption

end Sys2Proof
end

