-- ==== Sys2Proof/Machine/State.lean ====
section
/-! DEFINITION. The state of the machine as plain data (10_state.md), its value after reset, and the reasons a step can
stop. -/

namespace Sys2Proof.Machine

/-- The error a `raise` records (10_state.md R16, 60_exceptions.md R83 to R86). -/
inductive Err where
  /-- the byte `op` fetched at address `loc` is no opcode (R83) -/
  | invalidOpcode (op : Byte) (loc : Nat)
  /-- the ALU was given an operation it does not have (R84); no program can cause it (42_alu.md R64) -/
  | invalidALUOperation
  /-- an access to the integer address `addr`, which is outside 0..255 (R85) -/
  | addressError (addr : Int)
  /-- the register operand `idx`, fetched from address `loc`, is 8 or more (R86) -/
  | registerIndexError (idx : Byte) (loc : Nat)
deriving DecidableEq, Repr

/-- The three statuses of the machine (10_state.md R15). -/
inductive Status where
  | active
  | halted
  | faulted
deriving DecidableEq, Repr

/-- Memory as a list of (address, byte) pairs in the canonical form `Memory.wf` (Machine/Ops.lean): addresses strictly
rising and below 256, no byte equal to what an unlisted address reads as. -/
abbrev Memory := List Host.Cell

/-- The state tuple `( x[0..7], pc, sp, fl, running, err, mem[0..255], out )` (10_state.md; R18: there is no other). -/
structure State where
  /-- the eight general registers (R9) -/
  x : Vector Byte 8
  /-- the program counter: the address of the opcode byte of the instruction being executed (R11) -/
  pc : Ptr
  /-- the stack pointer: the address of the byte pushed last (R12) -/
  sp : Ptr
  /-- the flags register: bit 0 E, bit 1 L, bit 2 G (R13) -/
  fl : Byte
  /-- the running flag (R14) -/
  running : Bool
  /-- the fault status; none is the spec's own value of it (R16) -/
  err : Option Err
  /-- the 256 memory cells (20_memory.md R25) -/
  mem : Memory
  /-- the bytes emitted so far, the oldest first (R17) -/
  out : List Byte
deriving DecidableEq, Repr

/-- The state after reset, before load (10_state.md R24, 70_reset_and_hazards.md R101). No cell is listed: every cell
reads as 0x00 until the loader writes it (log 6, log 8). -/
def State.reset : State where
  x := Vector.replicate 8 Config.regReset
  pc := Config.pcReset
  sp := Config.spReset
  fl := Config.flReset
  running := true
  err := none
  mem := []
  out := []

/-- Why a step stops WITHOUT a next state: on this hardware, never. Each of the four errors has its entry described by the
spec (`err` takes the error, nothing else changes, 60_exceptions.md R87) and is therefore a next state, and the step is
a total function (40_dispatch_cycle.md R58, 93_implementation_defined.md: nothing is `stuck`), so no constructor is needed.
Safe: log 2, log 12. -/
inductive Fault
deriving DecidableEq, Repr

/-- Why an instruction has no meaning in the model. -/
inductive Refusal where
  /-- raised only by an arm of `exec` whose instruction has no meaning yet (safe); in this model no arm is -/
  | notModelled (mnemonic : String)
deriving DecidableEq, Repr

end Sys2Proof.Machine
end

