-- ==== Sys2Proof/Machine/Ops.lean ====
section
/-! DEFINITION. The named operations every meaning is written over: memory, registers, state updates, the stack, and
raising an error (the pseudocode primitives of 00_scope.md section 5.2). -/

namespace Sys2Proof.Machine

/-! ## Memory -/

/-- What a cell that is not listed reads as: 0x00 in every cell the loader did not write (10_state.md R24, D11; log 6). -/
def Memory.unlisted : Byte := 0x00

/-- The canonical form: addresses strictly rising and in 0..255, no entry equal to what an unlisted address reads as. -/
abbrev Memory.wf (m : Memory) : Prop :=
  m.Pairwise (fun c d => c.1 < d.1) ∧ ∀ c ∈ m, c.1 < Config.memSize ∧ c.2 ≠ Memory.unlisted

/-- The byte in cell `a`: `mem[a]`. -/
def Memory.read : Memory → Nat → Byte
  | [], _ => Memory.unlisted
  | (k, b) :: rest, a => if k = a then b else Memory.read rest a

/-- The cell `a` with byte `v` put before `m`, unless it would read so anyway. -/
def Memory.cons (a : Nat) (v : Byte) (m : Memory) : Memory :=
  if v = Memory.unlisted then m else (a, v) :: m

/-- Cell `a` takes byte `v` and no other cell changes: `mem[a] <- v`. -/
def Memory.write : Memory → Nat → Byte → Memory
  | [], a, v => Memory.cons a v []
  | (k, b) :: rest, a, v =>
    if a < k then Memory.cons a v ((k, b) :: rest)
    else if a = k then Memory.cons a v rest
    else (k, b) :: Memory.write rest a v

/-- Put bytes into consecutive cells from address `a` upward; bytes that would lie outside 0..255 are dropped. -/
def Memory.writeBytes (m : Memory) (a : Nat) : List Byte → Memory
  | [] => m
  | b :: bs => Memory.writeBytes (if a < Config.memSize then m.write a b else m) (a + 1) bs

/-- `MemRead(a, 1)` for an integer `a` (20_memory.md R27). -/
def memRead (m : Memory) (a : Int) : Except Err Byte :=
  if a < 0 ∨ a > 255 then throw (.addressError a) else return m.read a.toNat

/-- `MemWrite(a, 1, v)` for an integer `a` (20_memory.md R28). -/
def memWrite (m : Memory) (a : Int) (v : Byte) : Except Err Memory :=
  if a < 0 ∨ a > 255 then throw (.addressError a) else return m.write a.toNat v

/-! ## One update per field of the state -/

/-- Set the register file. -/
def State.withX (s : State) (v : Vector Byte 8) : State := { s with x := v }

/-- `pc <- v`. -/
def State.withPc (s : State) (v : Ptr) : State := { s with pc := v }

/-- `sp <- v`. -/
def State.withSp (s : State) (v : Ptr) : State := { s with sp := v }

/-- `fl <- v`. -/
def State.withFl (s : State) (v : Byte) : State := { s with fl := v }

/-- `running <- v`. -/
def State.withRunning (s : State) (v : Bool) : State := { s with running := v }

/-- `err <- v`. -/
def State.withErr (s : State) (v : Option Err) : State := { s with err := v }

/-- Set the memory. -/
def State.withMem (s : State) (v : Memory) : State := { s with mem := v }

/-- Set the output stream. -/
def State.withOut (s : State) (v : List Byte) : State := { s with out := v }

/-! ## Registers, program counter, output -/

/-- `x[i]` (00_scope.md 5.2): total, every register always holds a value. -/
def State.readReg (s : State) (r : Fin 8) : Byte := s.x[r]

/-- `x[i] <- v`. No register is hardwired or discards writes (10_state.md R9). -/
def State.writeReg (s : State) (r : Fin 8) (v : Byte) : State := s.withX (s.x.set r v)

/-- `pc <- pc + n`. The sum is exact in every state an instruction executes in, where `pc <= 255`
(10_state.md R11; DESIGN CHOICE, log 5). -/
def State.advance (s : State) (n : Nat) : State := s.withPc (s.pc + BitVec.ofNat 9 n)

/-- `zext_9(v)`: a byte placed in the 9-bit `pc` keeps its value (00_scope.md 5.2). -/
def zext9 (v : Byte) : Ptr := v.setWidth 9

/-- `Output(v)`: append the byte to the output stream (10_state.md R17). -/
def State.emit (s : State) (v : Byte) : State := s.withOut (s.out ++ [v])

/-! ## The stack: the one data addressing mode (43_stack.md) -/

/-- The address PUSH and CALL write: `sp - 1`, pre-decrement (43_stack.md R71, 44_control_flow.md R74). -/
def State.pushAddr (s : State) : Int := s.sp.toNat - 1

/-- The address POP and RET read: `sp`, post-increment (43_stack.md R72, 44_control_flow.md R75). -/
def State.popAddr (s : State) : Int := s.sp.toNat

/-- Push one byte: check the address, write the cell, lower `sp` (43_stack.md R71). At `sp = 0` the address is -1 and
the write raises `AddressError(-1)`. -/
def pushByte (s : State) (v : Byte) : Except Err State := do
  let m ← memWrite s.mem s.pushAddr v
  return (s.withMem m).withSp (s.sp - 1)

/-- Pop one byte: read the cell, raise `sp`; the cell keeps its byte (43_stack.md R72). -/
def popByte (s : State) : Except Err (Byte × State) := do
  let v ← memRead s.mem s.popAddr
  return (v, s.withSp (s.sp + 1))

/-! ## Status and errors -/

/-- The status of the machine (10_state.md R15). -/
def State.status (s : State) : Status :=
  match s.err, s.running with
  | some _, _ => .faulted
  | none, false => .halted
  | none, true => .active

/-- `raise E(info)`: taking an error, the one exception entry of this machine (60_exceptions.md R87): `err` takes the
error and no other state element changes; no pc or status is saved, no mode changes, control goes nowhere. There is no return
from it (R89): only reset clears `err`. It is a next state (log 2). -/
def raise (e : Err) (s : State) : Host.Outcome State Fault Refusal := .next (s.withErr (some e))

/-- The end of an instruction's checks: either they all passed and the state is the one its writes give, or the first that
failed is raised from the state BEFORE the instruction, so that an error leaves nothing written
(40_dispatch_cycle.md R57, 60_exceptions.md R88). -/
def settle (s : State) : Except Err State → Host.Outcome State Fault Refusal
  | .ok t => .next t
  | .error e => raise e s

end Sys2Proof.Machine
end

