-- ==== Sys2Proof/Machine/Flags.lean ====
section
/-! DEFINITION. The flags register: its three bits, the value a comparison gives it, and the one test made of it
(10_state.md R13, 42_alu.md R69, R70). -/

namespace Sys2Proof.Machine

/-- E, EQUAL: bit 0 (10_state.md R13). -/
def flagE : Byte := 0x01

/-- L, LESS-THAN: bit 1. -/
def flagL : Byte := 0x02

/-- G, GREATER-THAN: bit 2. -/
def flagG : Byte := 0x04

/-- The value CMP gives `fl`: exactly one of E, L, G, by an unsigned comparison of the first operand with the second
(42_alu.md R69). -/
def compareFlags (a b : Byte) : Byte :=
  if a = b then flagE else if a.toNat < b.toNat then flagL else flagG

/-- `fl[0] = 1`: all that JEQ and JNE look at (44_control_flow.md R77, R78). -/
def State.equalFlag (s : State) : Bool := s.fl.getLsbD 0

end Sys2Proof.Machine
end

