-- ==== Sys2Proof/Machine/Operands.lean ====
section
/-! DEFINITION. The operand forms: a register operand is a whole byte, checked by `RegIdx`; an immediate is a whole byte
used as it is (30_encoding.md R43, R44). -/

namespace Sys2Proof.Machine

/-- The address operand byte `k` (1 or 2) was fetched from: `pc + k` (30_encoding.md R42, 40_dispatch_cycle.md R56). -/
def State.operandAddr (s : State) (k : Nat) : Nat := s.pc.toNat + k

/-- `RegIdx(b)`: the register a byte names, or `RegisterIndexError(b, at)`; the upper bits are not masked
(30_encoding.md R44). -/
def regIdx (b : Byte) (loc : Nat) : Except Err (Fin 8) :=
  if h : b.toNat < 8 then return ⟨b.toNat, h⟩ else throw (.registerIndexError b loc)

/-- The register named by the operand byte at `pc + 1`. -/
def State.regA (s : State) (b : Byte) : Except Err (Fin 8) := regIdx b (s.operandAddr 1)

/-- The register named by the operand byte at `pc + 2` (format RR). -/
def State.regB (s : State) (b : Byte) : Except Err (Fin 8) := regIdx b (s.operandAddr 2)

/-- LDI's immediate: the byte at `pc + 2`, with no extension, shift or scaling (30_encoding.md R43). -/
def immediate (b : Byte) : Byte := b

end Sys2Proof.Machine
end

