-- ==== Sys2Proof/Machine/Alu.lean ====
section
/-! DEFINITION. The stateless ALU (42_alu.md R62 to R64) and the meanings of its five instructions MULT, ADD, INC, DEC, CMP
(R65 to R69). -/

namespace Sys2Proof.Machine

/-- The ALU: an operation name and one or two bytes in, one byte out: the new register value, or for CMP the new `fl`
(42_alu.md R62, R63). INC and DEC do not look at the second byte. An operation that is not one of the five is
`InvalidALUOperation` (R64); the operation names are the mnemonics, since the decoded mnemonic chooses the operation (log 10). -/
def alu (op : Mnemonic) (a b : Byte) : Except Err Byte :=
  match op with
  | .add  => return a + b
  | .mult => return a * b
  | .inc  => return a + 1
  | .dec  => return a - 1
  | .cmp  => return compareFlags a b
  | .ldi | .prn | .push | .pop | .call | .ret | .jmp | .jeq | .jne | .hlt => throw .invalidALUOperation

/-- MULT regA, regB (42_alu.md R65). -/
def execMult (regA regB : Byte) (s : State) : Host.Outcome State Fault Refusal := settle s do
  let a ← s.regA regA
  let b ← s.regB regB
  let v ← alu .mult (s.readReg a) (s.readReg b)
  return (s.writeReg a v).advance 3

/-- ADD regA, regB (42_alu.md R66). -/
def execAdd (regA regB : Byte) (s : State) : Host.Outcome State Fault Refusal := settle s do
  let a ← s.regA regA
  let b ← s.regB regB
  let v ← alu .add (s.readReg a) (s.readReg b)
  return (s.writeReg a v).advance 3

/-- INC reg (42_alu.md R67). -/
def execInc (reg : Byte) (s : State) : Host.Outcome State Fault Refusal := settle s do
  let r ← s.regA reg
  let v ← alu .inc (s.readReg r) 0
  return (s.writeReg r v).advance 2

/-- DEC reg (42_alu.md R68). -/
def execDec (reg : Byte) (s : State) : Host.Outcome State Fault Refusal := settle s do
  let r ← s.regA reg
  let v ← alu .dec (s.readReg r) 0
  return (s.writeReg r v).advance 2

/-- CMP regA, regB (42_alu.md R69). -/
def execCmp (regA regB : Byte) (s : State) : Host.Outcome State Fault Refusal := settle s do
  let a ← s.regA regA
  let b ← s.regB regB
  let v ← alu .cmp (s.readReg a) (s.readReg b)
  return (s.withFl v).advance 3

end Sys2Proof.Machine
end

