-- ==== Sys2Proof/Machine/Control.lean ====
section
/-! DEFINITION. The meanings of the control transfers CALL, RET, JMP, JEQ, JNE (44_control_flow.md R74 to R78) and of HLT
(45_halt.md R81). -/

namespace Sys2Proof.Machine

/-- The byte CALL saves: the address of the CALL's own opcode byte, which fits a byte exactly since the CALL was fetched
at `pc <= 255` (44_control_flow.md R74; log 11). -/
def State.callSave (s : State) : Byte := s.pc.setWidth 8

/-- `pc <- zext_9(x[r])`: the target of CALL, JMP and a taken JEQ or JNE (44_control_flow.md R80). -/
def State.jumpTo (s : State) (r : Fin 8) : State := s.withPc (zext9 (s.readReg r))

/-- CALL reg (44_control_flow.md R74). The operand byte was fetched before the stack write (40_dispatch_cycle.md R57). -/
def execCall (reg : Byte) (s : State) : Host.Outcome State Fault Refusal := settle s do
  let r ← s.regA reg
  let t ← pushByte s s.callSave
  return t.jumpTo r

/-- RET: pop the saved address and go 2 past it, exactly, with no wrap (44_control_flow.md R75). -/
def execRet (s : State) : Host.Outcome State Fault Refusal := settle s do
  let (v, t) ← popByte s
  return t.withPc (zext9 v + 2)

/-- JMP reg (44_control_flow.md R76). -/
def execJmp (reg : Byte) (s : State) : Host.Outcome State Fault Refusal := settle s do
  let r ← s.regA reg
  return s.jumpTo r

/-- JEQ reg: the register byte is checked whether or not the jump is taken (44_control_flow.md R77). -/
def execJeq (reg : Byte) (s : State) : Host.Outcome State Fault Refusal := settle s do
  let r ← s.regA reg
  return if s.equalFlag then s.jumpTo r else s.advance 2

/-- JNE reg: taken when E is clear (44_control_flow.md R78). -/
def execJne (reg : Byte) (s : State) : Host.Outcome State Fault Refusal := settle s do
  let r ← s.regA reg
  return if s.equalFlag then s.advance 2 else s.jumpTo r

/-- HLT (45_halt.md R81). -/
def execHlt (s : State) : Host.Outcome State Fault Refusal := settle s do
  return (s.withRunning false).advance 1

end Sys2Proof.Machine
end

