-- ==== Sys2Proof/Machine/LoadOutput.lean ====
section
/-! DEFINITION. The meanings of LDI and PRN (41_load_and_output.md R60, R61). -/

namespace Sys2Proof.Machine

/-- LDI reg, imm (41_load_and_output.md R60). -/
def execLdi (reg imm : Byte) (s : State) : Host.Outcome State Fault Refusal := settle s do
  let r ← s.regA reg
  return (s.writeReg r (immediate imm)).advance 3

/-- PRN reg (41_load_and_output.md R61). -/
def execPrn (reg : Byte) (s : State) : Host.Outcome State Fault Refusal := settle s do
  let r ← s.regA reg
  return (s.emit (s.readReg r)).advance 2

end Sys2Proof.Machine
end

