-- ==== Sys2Proof/Machine/Stack.lean ====
section
/-! DEFINITION. The meanings of PUSH and POP (43_stack.md R71, R72). -/

namespace Sys2Proof.Machine

/-- PUSH reg (43_stack.md R71). -/
def execPush (reg : Byte) (s : State) : Host.Outcome State Fault Refusal := settle s do
  let r ← s.regA reg
  let t ← pushByte s (s.readReg r)
  return t.advance 2

/-- POP reg (43_stack.md R72). -/
def execPop (reg : Byte) (s : State) : Host.Outcome State Fault Refusal := settle s do
  let r ← s.regA reg
  let (v, t) ← popByte s
  return (t.writeReg r v).advance 2

end Sys2Proof.Machine
end

