-- ==== Sys2Proof/Machine/Dispatch.lean ====
section
/-! DEFINITION. The fixed opcode to handler mapping (40_dispatch_cycle.md R55): one arm per instruction. -/

namespace Sys2Proof.Machine

/-- Stages (4) and (5) of the step: the instruction's remaining checks and its writes (40_dispatch_cycle.md R53). -/
def exec (i : Instr) (s : State) : Host.Outcome State Fault Refusal :=
  match i with
  | .ldi reg imm => Sys2Proof.Machine.execLdi reg imm s
  | .prn reg => Sys2Proof.Machine.execPrn reg s
  | .mult regA regB => Sys2Proof.Machine.execMult regA regB s
  | .add regA regB => Sys2Proof.Machine.execAdd regA regB s
  | .inc reg => Sys2Proof.Machine.execInc reg s
  | .dec reg => Sys2Proof.Machine.execDec reg s
  | .push reg => Sys2Proof.Machine.execPush reg s
  | .pop reg => Sys2Proof.Machine.execPop reg s
  | .call reg => Sys2Proof.Machine.execCall reg s
  | .ret => Sys2Proof.Machine.execRet s
  | .cmp regA regB => Sys2Proof.Machine.execCmp regA regB s
  | .jmp reg => Sys2Proof.Machine.execJmp reg s
  | .jeq reg => Sys2Proof.Machine.execJeq reg s
  | .jne reg => Sys2Proof.Machine.execJne reg s
  | .hlt => Sys2Proof.Machine.execHlt s

end Sys2Proof.Machine
end

