-- ==== Sys2Proof/Machine/Cycle.lean ====
section
/-! DEFINITION. The dispatcher's cycle: fetch, decode, operand fetch, execute (40_dispatch_cycle.md R53 to R57), over any
opcode table. -/

namespace Sys2Proof.Machine

/-- Byte `k` of the instruction at `pc`: `MemRead(pc + k, 1)`, never wrapping to address 0 (40_dispatch_cycle.md R54,
R56). -/
def State.fetchByte (s : State) (k : Nat) : Except Err Byte := memRead s.mem (s.operandAddr k)

/-- Stages (1) to (3) of the step: opcode fetch, decode, operand fetch (40_dispatch_cycle.md R54 to R56). -/
def fetchInstr (opc : OpcodeMap) (s : State) : Except Err Instr :=
  decodeFrom opc s.fetchByte (fun op => .invalidOpcode op s.pc.toNat)

/-- The step of an ACTIVE machine (40_dispatch_cycle.md R53). -/
def activeStep (opc : OpcodeMap) (s : State) : Host.Outcome State Fault Refusal :=
  match fetchInstr opc s with
  | .ok i => exec i s
  | .error e => raise e s

/-- One step: an ACTIVE machine steps; on a HALTED or FAULTED machine it does nothing (10_state.md R15, R22; log 3). -/
def stepWith (opc : OpcodeMap) (s : State) : Host.Outcome State Fault Refusal :=
  match s.status with
  | .active => activeStep opc s
  | .halted | .faulted => .next s

/-- `s` with the bytes of an instruction placed where the next fetch reads them. -/
def placeAtPc (s : State) (bytes : List Byte) : State := s.withMem (s.mem.writeBytes s.pc.toNat bytes)

end Sys2Proof.Machine
end

