-- ==== Sys2Proof/Machine/Step.lean ====
section
/-! DEFINITION. The step under the default opcode table, and the placing of one instruction for it. -/

namespace Sys2Proof.Machine

/-- One step of the machine whose `OPCODE` is the default table (10_state.md R22, 40_dispatch_cycle.md R53; log 1). -/
def step (s : State) : Host.Outcome State Fault Refusal := stepWith defaultOpcode s

/-- `s` with the three bytes of an opcode table word stored at `pc`, `pc + 1`, `pc + 2`, those of them that lie in
memory; it stands for the loader (log 8). -/
def State.withFetchWord (s : State) (nbits w : Nat) : State := placeAtPc s (tableBytes nbits w)

end Sys2Proof.Machine
end

