-- ==== Sys2Proof/Machine/Driver.lean ====
section
/-! DEFINITION. The driver's side of the machine: load, run, error codes (10_state.md R20 to R23,
60_exceptions.md R91, 70_reset_and_hazards.md R103, R104). The read accessor (10_state.md R23) is reading the fields of
State, `State.readReg` and `Memory.read`: none of them changes anything. -/

namespace Sys2Proof.Machine

/-- The load-completion point: byte `k` of the program is put at address `k`, nothing but Memory is written, and nothing
is checked but the length: more than 256 bytes cannot be loaded (10_state.md R20, 70_reset_and_hazards.md R103, R104; log 15). -/
def State.load (s : State) (program : List Byte) : Option State :=
  if program.length ≤ Config.memSize then some (s.withMem (s.mem.writeBytes 0 program)) else none

/-- `run`: steps while the machine is ACTIVE and gives the state in which it is not (10_state.md R21). None: the fuel
did not suffice, or a step gave no next state (which never happens). The hardware has no step limit; the fuel is the
model's (70_reset_and_hazards.md R109; log 13). -/
def runWith (opc : OpcodeMap) : Nat → State → Option State
  | fuel, s =>
    match s.status with
    | .halted | .faulted => some s
    | .active =>
      match fuel with
      | 0 => none
      | k + 1 =>
        match stepWith opc s with
        | .next t => runWith opc k t
        | .fault _ => none
        | .refused _ => none

/-- `run` under the default opcode table. -/
def run (fuel : Nat) (s : State) : Option State := runWith defaultOpcode fuel s

/-- The numbers of the errors, 0 for none (60_exceptions.md R91). No rule depends on them. -/
def errCode : Option Err → Nat
  | none => 0
  | some (.invalidOpcode _ _) => 1
  | some .invalidALUOperation => 2
  | some (.addressError _) => 3
  | some (.registerIndexError _ _) => 4

end Sys2Proof.Machine
end

