-- ==== Sys2Proof/Safety.lean ====
section
/-! DEFINITION. What counts as a safe state and a good end, and the terms the claims use (10_state.md R15, R19;
45_halt.md R82; 60_exceptions.md R90). -/

namespace Sys2Proof.Machine

/-- The values `fl` can hold: 0x00 before the first CMP, then exactly one of E, L, G (10_state.md R13). -/
abbrev legalFlags (v : Byte) : Prop := v = 0x00 ∨ v = flagE ∨ v = flagL ∨ v = flagG

/-- The invariant of every reachable state (10_state.md R19): the ranges of `pc` and `sp`, the legal values of `fl`, and the
canonical form of memory, which is the model's own. -/
structure State.Inv (s : State) : Prop where
  pc_le : s.pc.toNat ≤ 257
  sp_le : s.sp.toNat ≤ 256
  fl_legal : legalFlags s.fl
  mem_wf : s.mem.wf

/-- The only good end of a run (10_state.md R15, 45_halt.md R82). -/
abbrev State.goodEnd (s : State) : Prop := s.status = .halted

/-- The byte that names register `r` in an instruction (30_encoding.md R44). -/
def regByte (r : Fin 8) : Byte := BitVec.ofNat 8 r.val

/-- The `n` bytes of memory from address `a` upward. -/
def bytesAt (m : Memory) (a n : Nat) : List Byte := (List.range n).map fun k => m.read (a + k)

/-- Memory holds `bytes` in consecutive cells from `a` upward, all of them inside 0..255. -/
abbrev holdsBytes (m : Memory) (a : Nat) (bytes : List Byte) : Prop :=
  a + bytes.length ≤ Config.memSize ∧ bytesAt m a bytes.length = bytes

/-- What the "Encoding" line of an instruction's rule says: under every injective opcode table, an ACTIVE machine with these
bytes at `pc` executes this instruction. -/
def FetchedAs (i : Instr) (bytes : OpcodeMap → List Byte) : Prop :=
  ∀ opc : OpcodeMap, opc.Injective → ∀ s : State, s.status = .active →
    holdsBytes s.mem s.pc.toNat (bytes opc) → stepWith opc s = exec i s

/-- What the first "Exceptions" of an instruction's rule say: with its opcode so near the top of memory that an operand byte
would lie at 256, the step raises `AddressError(256)` and changes nothing else (40_dispatch_cycle.md R56). -/
def OperandFetchFaults (m : Mnemonic) : Prop :=
  ∀ opc : OpcodeMap, opc.Injective → ∀ s : State, s.status = .active → s.pc.toNat ≤ 255 →
    s.mem.read s.pc.toNat = opc m → 255 < s.pc.toNat + m.operandCount →
      stepWith opc s = .next { s with err := some (.addressError 256) }

/-- The stack address check of an instruction that has one (40_dispatch_cycle.md R57, 60_exceptions.md R92): the last of the
checks. -/
def stackError (m : Mnemonic) (sp : Ptr) : Option Err :=
  match m with
  | .push | .call =>
    if sp.toNat = 0 ∨ 256 < sp.toNat then some (.addressError ((sp.toNat : Int) - 1)) else none
  | .pop | .ret => if 255 < sp.toNat then some (.addressError sp.toNat) else none
  | .ldi | .prn | .mult | .add | .inc | .dec | .cmp | .jmp | .jeq | .jne | .hlt => none

/-- The error of the step from `s`, written as 60_exceptions.md R90 lists the seven conditions and not as the machine runs:
the first that applies, or none. -/
def firstError (opc : OpcodeMap) (s : State) : Option Err :=
  let p := s.pc.toNat
  if 255 < p then some (.addressError p)
  else match opcodeLookup opc (s.mem.read p) with
    | none => some (.invalidOpcode (s.mem.read p) p)
    | some m =>
      if 1 ≤ m.operandCount ∧ 255 < p + 1 then some (.addressError (p + 1 : Nat))
      else if 2 ≤ m.operandCount ∧ 255 < p + 2 then some (.addressError (p + 2 : Nat))
      else if 1 ≤ m.operandCount ∧ 8 ≤ (s.mem.read (p + 1)).toNat then
        some (.registerIndexError (s.mem.read (p + 1)) (p + 1))
      else if m.format = .rr ∧ 8 ≤ (s.mem.read (p + 2)).toNat then
        some (.registerIndexError (s.mem.read (p + 2)) (p + 2))
      else stackError m s.sp

/-- Instructions executed one after another, each from the state the one before left. -/
def execAll : List Instr → State → Host.Outcome State Fault Refusal
  | [], s => .next s
  | i :: rest, s =>
    match exec i s with
    | .next t => execAll rest t
    | .fault f => .fault f
    | .refused r => .refused r

end Sys2Proof.Machine
end

