-- ==== Sys2Proof/Certificates/Slice0/Obligations.lean ====
section
/-! DEFINITION. The statements for the provers. Each docstring names the rule or section of spec/ it formalises. -/

open Sys2Proof Sys2Proof.Machine

/-! ## Decoding and encoding -/

/-- 30_encoding.md R42, R45: decoding what the encoder gives, whatever follows it, gives the instruction back, with every
operand byte at every value, under every injective opcode table. -/
def Obligations.DecodeOfEncode : Prop :=
  ∀ opc : OpcodeMap, opc.Injective → ∀ (i : Instr) (rest : List Byte),
    decodeWith opc (encodeWith opc i ++ rest) = .ok i

/-- 30_encoding.md R41, R47: what decodes to an instruction begins with that instruction's encoding. -/
def Obligations.EncodeOfDecode : Prop :=
  ∀ (opc : OpcodeMap) (bytes : List Byte) (i : Instr), decodeWith opc bytes = .ok i →
    bytes.take i.length = encodeWith opc i ∧ i.length ≤ bytes.length

/-- 30_encoding.md sections 1 and 4: every list of bytes that is no instruction is rejected by the name of what is wrong:
nothing there, no opcode, or the first operand byte that is missing. -/
def Obligations.DecodeRejectsByName : Prop :=
  ∀ opc : OpcodeMap, opc.Injective →
    decodeWith opc [] = .error .noOpcodeByte ∧
    (∀ (op : Byte) (rest : List Byte), (∀ m, opc m ≠ op) → decodeWith opc (op :: rest) = .error (.illegalOpcode op)) ∧
    (∀ (m : Mnemonic) (rest : List Byte), rest.length < m.operandCount →
      decodeWith opc (opc m :: rest) = .error (.noOperandByte (rest.length + 1)))

/-- 30_encoding.md R45 and spec/opcode_table.json: four words of the table, numbered as it numbers them, decode to the
instructions they stand for, and the word 0 is none. -/
def Obligations.SpecWordsDecode : Prop :=
  decodeTableWord 24 0x080082 = some (.ldi 0 8) ∧ decodeTableWord 24 0x0100A2 = some (.mult 0 1) ∧
  decodeTableWord 16 0x0146 = some (.pop 1) ∧ decodeTableWord 8 0x11 = some .ret ∧ decodeTableWord 8 0x00 = none

/-! ## The step -/

/-- 40_dispatch_cycle.md section on the step: when the bytes at `pc`, all inside memory, decode to an instruction, the step
of an ACTIVE machine is the execution of that instruction, under any opcode table. -/
def Obligations.StepRunsDecodedInstruction : Prop :=
  (∀ (opc : OpcodeMap) (s : State) (i : Instr) (n : Nat), s.status = .active → s.pc.toNat + n ≤ 256 →
    decodeWith opc (bytesAt s.mem s.pc.toNat n) = .ok i → stepWith opc s = exec i s) ∧
  (∀ (s : State) (i : Instr) (n : Nat), s.status = .active → s.pc.toNat + n ≤ 256 →
    decode (bytesAt s.mem s.pc.toNat n) = .ok i → step s = exec i s)

/-- The model's own loading of one table word (log 8): where the three cells at `pc` exist, the very next step runs the
instruction the word decodes to, and only those three cells were changed. -/
def Obligations.PlacedTableWordIsRun : Prop :=
  ∀ (s : State) (nbits w : Nat) (i : Instr), s.status = .active → s.pc.toNat + 3 ≤ 256 → s.mem.wf →
    decodeTableWord nbits w = some i →
      step (s.withFetchWord nbits w) = exec i (s.withFetchWord nbits w) ∧
      s.withFetchWord nbits w = { s with mem := (s.withFetchWord nbits w).mem } ∧
      ∀ a, (a < s.pc.toNat ∨ s.pc.toNat + 3 ≤ a) → (s.withFetchWord nbits w).mem.read a = s.mem.read a

/-- 40_dispatch_cycle.md R54: the opcode byte is the byte at `pc`; a `pc` above 255 makes the step raise AddressError(pc)
and change nothing else. -/
def Obligations.FetchReadsTheByteAtPcOrRaises : Prop :=
  (∀ s : State, s.pc.toNat ≤ 255 → s.fetchByte 0 = .ok (s.mem.read s.pc.toNat)) ∧
  (∀ (opc : OpcodeMap) (s : State), s.status = .active → 255 < s.pc.toNat →
    stepWith opc s = .next { s with err := some (.addressError s.pc.toNat) })

/-- 30_encoding.md R48, 60_exceptions.md R83: a byte that is the opcode of no instruction raises InvalidOpcode with the byte
and its address and changes nothing else; under the default table 241 byte values are such. -/
def Obligations.IllegalOpcodeRaisesInvalidOpcode : Prop :=
  (∀ (opc : OpcodeMap) (s : State), s.status = .active → s.pc.toNat ≤ 255 →
    (∀ m, opc m ≠ s.mem.read s.pc.toNat) →
      stepWith opc s = .next { s with err := some (.invalidOpcode (s.mem.read s.pc.toNat) s.pc.toNat) }) ∧
  ((List.range 256).filter fun n => (opcodeLookup defaultOpcode (BitVec.ofNat 8 n)).isNone).length = 241

/-- 40_dispatch_cycle.md R56: the operand bytes are those at `pc + 1` and `pc + 2`; one that would lie at 256 raises
AddressError(256), and nothing wraps to address 0. -/
def Obligations.OperandBytesAreFetchedAfterTheOpcode : Prop :=
  ∀ opc : OpcodeMap, opc.Injective → ∀ (s : State) (m : Mnemonic), s.status = .active → s.pc.toNat ≤ 255 →
    s.mem.read s.pc.toNat = opc m →
      (255 < s.pc.toNat + m.operandCount → stepWith opc s = .next { s with err := some (.addressError 256) }) ∧
      (s.pc.toNat + m.operandCount ≤ 255 → ∃ i, i.mnemonic = m ∧
        i.operands = bytesAt s.mem (s.pc.toNat + 1) m.operandCount ∧ stepWith opc s = exec i s)

/-- 60_exceptions.md R90: an ACTIVE machine raises the first error of the list that applies, and nothing else of the state
changes; where none applies the step completes with no error. -/
def Obligations.StepRaisesExactlyTheFirstError : Prop :=
  ∀ (opc : OpcodeMap) (s : State), s.status = .active →
    (∀ e, firstError opc s = some e → stepWith opc s = .next { s with err := some e }) ∧
    (firstError opc s = none → ∃ t, stepWith opc s = .next t ∧ t.err = none)

/-- 60_exceptions.md R86, 30_encoding.md R44: a register operand byte of 8 or more raises RegisterIndexError with the byte
and the address it was fetched from, the first operand before the second, and changes nothing else. -/
def Obligations.BadRegisterByteRaisesRegisterIndexError : Prop :=
  (∀ (i : Instr) (s : State) (b : Byte) (rest : List Byte), i.regOperands = b :: rest → 8 ≤ b.toNat →
    exec i s = .next { s with err := some (.registerIndexError b (s.pc.toNat + 1)) }) ∧
  (∀ (i : Instr) (s : State) (a b : Byte), i.regOperands = [a, b] → a.toNat < 8 → 8 ≤ b.toNat →
    exec i s = .next { s with err := some (.registerIndexError b (s.pc.toNat + 2)) })

/-- 60_exceptions.md R87: raising an error records it and changes nothing else; the machine is then FAULTED and takes no
further step, and `run` returns it as it is. -/
def Obligations.RaiseRecordsTheErrorAndStops : Prop :=
  ∀ (e : Err) (s : State), raise e s = .next { s with err := some e } ∧
    ({ s with err := some e } : State).status = .faulted ∧
    ∀ opc : OpcodeMap, stepWith opc { s with err := some e } = .next { s with err := some e } ∧
      ∀ n, runWith opc n { s with err := some e } = some { s with err := some e }

/-- 60_exceptions.md R88: an instruction, and a step, that changes `err` changes nothing else, and `err` was none before
the step. -/
def Obligations.ErrorsArePrecise : Prop :=
  (∀ (i : Instr) (s t : State), exec i s = .next t → t.err = s.err ∨ ∃ e, t = { s with err := some e }) ∧
  (∀ (opc : OpcodeMap) (s t : State), stepWith opc s = .next t → t.err ≠ s.err →
    s.err = none ∧ ∃ e, t = { s with err := some e })

/-- From every state there is exactly one next state; no step stops without one. For an ACTIVE state that is
40_dispatch_cycle.md R58; for a HALTED or FAULTED one it is 10_state.md section 8 (R22: the step "does nothing"), which the model
answers by the same state as next state (DEDUCED, log 3); that `exec` alone answers in every state is log 4. -/
def Obligations.StepIsTotal : Prop :=
  (∀ (i : Instr) (s : State), ∃ t, exec i s = .next t) ∧
  ∀ (opc : OpcodeMap) (s : State), ∃! t, stepWith opc s = .next t

/-- 10_state.md R22, R19: on a HALTED or FAULTED machine a step does nothing, so no number of steps changes it. -/
def Obligations.InactiveMachineNeverChanges : Prop :=
  (∀ (opc : OpcodeMap) (s : State), s.status ≠ .active → stepWith opc s = .next s) ∧
  ∀ (n : Nat) (s : State), s.status ≠ .active → Sys2Proof.core.run n s = .next s

/-- 42_alu.md section 1, 60_exceptions.md section 1: an operation name that is not one of the ALU's five is
InvalidALUOperation, and no step raises it ("so no program can cause this error", an inference the spec marks as its own). -/
def Obligations.InvalidALUOperationIsNeverRaised : Prop :=
  (∀ (m : Mnemonic) (a b : Byte), m ∉ [Mnemonic.add, .mult, .inc, .dec, .cmp] →
    alu m a b = .error .invalidALUOperation) ∧
  ∀ (opc : OpcodeMap) (s t : State), stepWith opc s = .next t → t.err = some .invalidALUOperation →
    s.err = some .invalidALUOperation

/-- 60_exceptions.md section 1: the only addresses an AddressError records are -1, 256 and 257, from every state that meets
the invariant. -/
def Obligations.AddressErrorRecordsOnlyThreeAddresses : Prop :=
  ∀ (opc : OpcodeMap) (s t : State) (a : Int), s.Inv → s.err = none → stepWith opc s = .next t →
    t.err = some (.addressError a) → a = -1 ∨ a = 256 ∨ a = 257

/-! ## The invariant, reset and load -/

/-- 10_state.md section 7: every step keeps the ranges of `pc` and `sp`, the legal values of `fl` and the canonical form of
memory, which is the model's own (log 6). -/
def Obligations.StepKeepsTheInvariant : Prop :=
  ∀ (opc : OpcodeMap) (s t : State), s.Inv → stepWith opc s = .next t → t.Inv

/-- The reset state meets the invariant. -/
def Obligations.ResetMeetsTheInvariant : Prop := State.reset.Inv

/-- 10_state.md section 7: whatever program was loaded, every state its run reaches meets the invariant, the run takes a step
only from a state with no error, and once it is not running or has an error it never changes again ("Invariants of every
reachable state", an inference the spec marks as its own; the canonical form of memory in `Inv` is the model's own, log 6). -/
def Obligations.EveryRunOfALoadedProgramIsLegal : Prop :=
  ∀ (program : List Byte) (s t : State) (n : Nat), State.reset.load program = some s →
    Sys2Proof.core.run n s = .next t →
      t.Inv ∧ (step t ≠ .next t → t.err = none) ∧
      (t.running = false ∨ t.err ≠ none → ∀ k, Sys2Proof.core.run k t = .next t)

/-- 10_state.md R24, 70_reset_and_hazards.md R101; memory is 0x00 before load and after it the loaded image. -/
def Obligations.ResetValues : Prop :=
  (∀ r : Fin 8, State.reset.x[r] = 0x00) ∧ State.reset.pc.toNat = 0 ∧ State.reset.sp.toNat = 0xF4 ∧
  State.reset.fl = 0x00 ∧ State.reset.running = true ∧ State.reset.err = none ∧ State.reset.out = [] ∧
  (∀ a, State.reset.mem.read a = 0x00) ∧ State.reset.status = .active ∧
  ∀ (program : List Byte) (t : State), State.reset.load program = some t →
    t = { State.reset with mem := t.mem } ∧ ∀ a, t.mem.read a = (program[a]?).getD 0x00

/-- 70_reset_and_hazards.md section 2: byte `k` of the program is at address `k`, the cells beyond it hold 0x00 and nothing but
Memory is written. `load` is the model's own stand-in for the loader (DESIGN CHOICE, log 8), and that it answers none for more than
256 bytes is the model's choice (log 15): the spec says they cannot be loaded and leaves out what the loader then does. -/
def Obligations.LoadPlacesTheImage : Prop :=
  ∀ program : List Byte,
    (program.length ≤ 256 → ∃ t, State.reset.load program = some t ∧ t = { State.reset with mem := t.mem } ∧
      ∀ a, t.mem.read a = (program[a]?).getD 0x00) ∧
    (256 < program.length → State.reset.load program = none)

/-! ## Memory and the ALU -/

/-- 20_memory.md R27. -/
def Obligations.MemReadChecksItsAddress : Prop :=
  ∀ (m : Memory) (a : Int),
    (a < 0 ∨ 255 < a → memRead m a = .error (.addressError a)) ∧
    (0 ≤ a → a ≤ 255 → memRead m a = .ok (m.read a.toNat))

/-- 20_memory.md R28: a write inside 0..255 changes the one cell and is read back; one outside raises. The premise is the
canonical form of memory (log 6), which `StepKeepsTheInvariant` says every step keeps. -/
def Obligations.MemWriteChangesOneCell : Prop :=
  ∀ (m : Memory) (a : Int) (v : Byte), m.wf →
    (a < 0 ∨ 255 < a → memWrite m a v = .error (.addressError a)) ∧
    (0 ≤ a → a ≤ 255 → ∃ m', memWrite m a v = .ok m' ∧
      ∀ b : Nat, m'.read b = if (b : Int) = a then v else m.read b)

/-- 42_alu.md R63: the arithmetic is on unsigned bytes modulo 256, DEC of 0 is 255, and no flag records an overflow. -/
def Obligations.AluArithmeticWrapsModulo256 : Prop :=
  (∀ a b : Byte,
    (∃ v, alu .add a b = .ok v ∧ v.toNat = (a.toNat + b.toNat) % 256) ∧
    (∃ v, alu .mult a b = .ok v ∧ v.toNat = (a.toNat * b.toNat) % 256) ∧
    (∃ v, alu .inc a b = .ok v ∧ v.toNat = (a.toNat + 1) % 256) ∧
    (∃ v, alu .dec a b = .ok v ∧ v.toNat = if a.toNat = 0 then 255 else a.toNat - 1)) ∧
  ∀ (i : Instr) (s t : State), i.mnemonic ∈ [Mnemonic.add, .mult, .inc, .dec] → exec i s = .next t → t.fl = s.fl

/-! ## The instructions

Each says the whole rule: the result with everything else unchanged, the errors of the instruction itself, the bytes it is
fetched from, and the errors of its operand fetch. A register operand is `regByte r` (0..7) or a byte of 8 or more. The
default opcode byte is the one the rule states; the spec marks those values as from general knowledge (log 1). -/

/-- 41_load_and_output.md R60. -/
def Obligations.LdiLoadsTheImmediate : Prop :=
  (∀ (r : Fin 8) (imm : Byte) (s : State),
    exec (.ldi (regByte r) imm) s = .next { s with x := s.x.set r imm, pc := s.pc + 3 }) ∧
  (∀ (b imm : Byte) (s : State), 8 ≤ b.toNat →
    exec (.ldi b imm) s = .next { s with err := some (.registerIndexError b (s.pc.toNat + 1)) }) ∧
  (∀ b imm : Byte, FetchedAs (.ldi b imm) fun opc => [opc .ldi, b, imm]) ∧ defaultOpcode .ldi = 0x82 ∧
  OperandFetchFaults .ldi

/-- 41_load_and_output.md R61; the last clause is its property that an LDI followed at once by a PRN of the same register
emits exactly the immediate. -/
def Obligations.PrnEmitsTheRegister : Prop :=
  (∀ (r : Fin 8) (s : State),
    exec (.prn (regByte r)) s = .next { s with out := s.out ++ [s.x[r]], pc := s.pc + 2 }) ∧
  (∀ (b : Byte) (s : State), 8 ≤ b.toNat →
    exec (.prn b) s = .next { s with err := some (.registerIndexError b (s.pc.toNat + 1)) }) ∧
  (∀ b : Byte, FetchedAs (.prn b) fun opc => [opc .prn, b]) ∧ defaultOpcode .prn = 0x47 ∧
  OperandFetchFaults .prn ∧
  (∀ opc : OpcodeMap, opc.Injective → ∀ (r : Fin 8) (v : Byte) (s : State), s.status = .active →
    holdsBytes s.mem s.pc.toNat [opc .ldi, regByte r, v, opc .prn, regByte r] →
      ∃ t u, stepWith opc s = .next t ∧ stepWith opc t = .next u ∧ u.out = s.out ++ [v])

/-- 42_alu.md R65. -/
def Obligations.MultMultipliesModulo256 : Prop :=
  (∀ (a b : Fin 8) (s : State), exec (.mult (regByte a) (regByte b)) s =
    .next { s with x := s.x.set a (BitVec.ofNat 8 ((s.x[a].toNat * s.x[b].toNat) % 256)), pc := s.pc + 3 }) ∧
  (∀ (a b : Byte) (s : State), 8 ≤ a.toNat →
    exec (.mult a b) s = .next { s with err := some (.registerIndexError a (s.pc.toNat + 1)) }) ∧
  (∀ (a : Fin 8) (b : Byte) (s : State), 8 ≤ b.toNat →
    exec (.mult (regByte a) b) s = .next { s with err := some (.registerIndexError b (s.pc.toNat + 2)) }) ∧
  (∀ a b : Byte, FetchedAs (.mult a b) fun opc => [opc .mult, a, b]) ∧ defaultOpcode .mult = 0xA2 ∧
  OperandFetchFaults .mult

/-- 42_alu.md R66. -/
def Obligations.AddAddsModulo256 : Prop :=
  (∀ (a b : Fin 8) (s : State), exec (.add (regByte a) (regByte b)) s =
    .next { s with x := s.x.set a (BitVec.ofNat 8 ((s.x[a].toNat + s.x[b].toNat) % 256)), pc := s.pc + 3 }) ∧
  (∀ (a b : Byte) (s : State), 8 ≤ a.toNat →
    exec (.add a b) s = .next { s with err := some (.registerIndexError a (s.pc.toNat + 1)) }) ∧
  (∀ (a : Fin 8) (b : Byte) (s : State), 8 ≤ b.toNat →
    exec (.add (regByte a) b) s = .next { s with err := some (.registerIndexError b (s.pc.toNat + 2)) }) ∧
  (∀ a b : Byte, FetchedAs (.add a b) fun opc => [opc .add, a, b]) ∧ defaultOpcode .add = 0xA0 ∧
  OperandFetchFaults .add

/-- 42_alu.md R67. -/
def Obligations.IncIncrementsModulo256 : Prop :=
  (∀ (r : Fin 8) (s : State), exec (.inc (regByte r)) s =
    .next { s with x := s.x.set r (BitVec.ofNat 8 ((s.x[r].toNat + 1) % 256)), pc := s.pc + 2 }) ∧
  (∀ (b : Byte) (s : State), 8 ≤ b.toNat →
    exec (.inc b) s = .next { s with err := some (.registerIndexError b (s.pc.toNat + 1)) }) ∧
  (∀ b : Byte, FetchedAs (.inc b) fun opc => [opc .inc, b]) ∧ defaultOpcode .inc = 0x65 ∧
  OperandFetchFaults .inc

/-- 42_alu.md R68. -/
def Obligations.DecDecrementsModulo256 : Prop :=
  (∀ (r : Fin 8) (s : State), exec (.dec (regByte r)) s =
    .next { s with x := s.x.set r (BitVec.ofInt 8 (((s.x[r].toNat : Int) - 1) % 256)), pc := s.pc + 2 }) ∧
  (∀ (b : Byte) (s : State), 8 ≤ b.toNat →
    exec (.dec b) s = .next { s with err := some (.registerIndexError b (s.pc.toNat + 1)) }) ∧
  (∀ b : Byte, FetchedAs (.dec b) fun opc => [opc .dec, b]) ∧ defaultOpcode .dec = 0x66 ∧
  OperandFetchFaults .dec

/-- 42_alu.md R69. -/
def Obligations.CmpSetsExactlyOneFlag : Prop :=
  (∀ (a b : Fin 8) (s : State), exec (.cmp (regByte a) (regByte b)) s =
    .next { s with
      fl := if s.x[a] = s.x[b] then 0x01 else if s.x[a].toNat < s.x[b].toNat then 0x02 else 0x04
      pc := s.pc + 3 }) ∧
  (∀ (a b : Byte) (s : State), 8 ≤ a.toNat →
    exec (.cmp a b) s = .next { s with err := some (.registerIndexError a (s.pc.toNat + 1)) }) ∧
  (∀ (a : Fin 8) (b : Byte) (s : State), 8 ≤ b.toNat →
    exec (.cmp (regByte a) b) s = .next { s with err := some (.registerIndexError b (s.pc.toNat + 2)) }) ∧
  (∀ a b : Byte, FetchedAs (.cmp a b) fun opc => [opc .cmp, a, b]) ∧ defaultOpcode .cmp = 0xA7 ∧
  OperandFetchFaults .cmp

/-- 43_stack.md R71. -/
def Obligations.PushStoresBelowTheStackTop : Prop :=
  (∀ (r : Fin 8) (s : State), 1 ≤ s.sp.toNat → s.sp.toNat ≤ 256 → exec (.push (regByte r)) s =
    .next { s with mem := s.mem.write (s.sp.toNat - 1) s.x[r], sp := BitVec.ofNat 9 (s.sp.toNat - 1), pc := s.pc + 2 }) ∧
  (∀ (b : Byte) (s : State), 8 ≤ b.toNat →
    exec (.push b) s = .next { s with err := some (.registerIndexError b (s.pc.toNat + 1)) }) ∧
  (∀ (r : Fin 8) (s : State), s.sp.toNat = 0 ∨ 256 < s.sp.toNat →
    exec (.push (regByte r)) s = .next { s with err := some (.addressError ((s.sp.toNat : Int) - 1)) }) ∧
  (∀ b : Byte, FetchedAs (.push b) fun opc => [opc .push, b]) ∧ defaultOpcode .push = 0x45 ∧
  OperandFetchFaults .push

/-- 43_stack.md R72. -/
def Obligations.PopLoadsTheStackTop : Prop :=
  (∀ (r : Fin 8) (s : State), s.sp.toNat ≤ 255 → exec (.pop (regByte r)) s =
    .next { s with x := s.x.set r (s.mem.read s.sp.toNat), sp := BitVec.ofNat 9 (s.sp.toNat + 1), pc := s.pc + 2 }) ∧
  (∀ (b : Byte) (s : State), 8 ≤ b.toNat →
    exec (.pop b) s = .next { s with err := some (.registerIndexError b (s.pc.toNat + 1)) }) ∧
  (∀ (r : Fin 8) (s : State), 255 < s.sp.toNat →
    exec (.pop (regByte r)) s = .next { s with err := some (.addressError s.sp.toNat) }) ∧
  (∀ b : Byte, FetchedAs (.pop b) fun opc => [opc .pop, b]) ∧ defaultOpcode .pop = 0x46 ∧
  OperandFetchFaults .pop

/-- 44_control_flow.md R74. -/
def Obligations.CallSavesItsOwnAddress : Prop :=
  (∀ (r : Fin 8) (s : State), s.pc.toNat ≤ 255 → 1 ≤ s.sp.toNat → s.sp.toNat ≤ 256 → exec (.call (regByte r)) s =
    .next { s with
      mem := s.mem.write (s.sp.toNat - 1) (BitVec.ofNat 8 s.pc.toNat)
      sp := BitVec.ofNat 9 (s.sp.toNat - 1)
      pc := BitVec.ofNat 9 s.x[r].toNat }) ∧
  (∀ (b : Byte) (s : State), 8 ≤ b.toNat →
    exec (.call b) s = .next { s with err := some (.registerIndexError b (s.pc.toNat + 1)) }) ∧
  (∀ (r : Fin 8) (s : State), s.sp.toNat = 0 ∨ 256 < s.sp.toNat →
    exec (.call (regByte r)) s = .next { s with err := some (.addressError ((s.sp.toNat : Int) - 1)) }) ∧
  (∀ b : Byte, FetchedAs (.call b) fun opc => [opc .call, b]) ∧ defaultOpcode .call = 0x50 ∧
  OperandFetchFaults .call

/-- 44_control_flow.md R75. -/
def Obligations.RetGoesTwoPastTheSavedAddress : Prop :=
  (∀ s : State, s.sp.toNat ≤ 255 → exec .ret s =
    .next { s with sp := BitVec.ofNat 9 (s.sp.toNat + 1), pc := BitVec.ofNat 9 ((s.mem.read s.sp.toNat).toNat + 2) }) ∧
  (∀ s : State, 255 < s.sp.toNat → exec .ret s = .next { s with err := some (.addressError s.sp.toNat) }) ∧
  (FetchedAs .ret fun opc => [opc .ret]) ∧ defaultOpcode .ret = 0x11

/-- 44_control_flow.md R76. -/
def Obligations.JmpGoesToTheRegister : Prop :=
  (∀ (r : Fin 8) (s : State), exec (.jmp (regByte r)) s = .next { s with pc := BitVec.ofNat 9 s.x[r].toNat }) ∧
  (∀ (b : Byte) (s : State), 8 ≤ b.toNat →
    exec (.jmp b) s = .next { s with err := some (.registerIndexError b (s.pc.toNat + 1)) }) ∧
  (∀ b : Byte, FetchedAs (.jmp b) fun opc => [opc .jmp, b]) ∧ defaultOpcode .jmp = 0x54 ∧
  OperandFetchFaults .jmp

/-- 44_control_flow.md R77. -/
def Obligations.JeqIsTakenWhenEqualIsSet : Prop :=
  (∀ (r : Fin 8) (s : State), exec (.jeq (regByte r)) s =
    .next { s with pc := if s.fl.toNat % 2 = 1 then BitVec.ofNat 9 s.x[r].toNat else s.pc + 2 }) ∧
  (∀ (b : Byte) (s : State), 8 ≤ b.toNat →
    exec (.jeq b) s = .next { s with err := some (.registerIndexError b (s.pc.toNat + 1)) }) ∧
  (∀ b : Byte, FetchedAs (.jeq b) fun opc => [opc .jeq, b]) ∧ defaultOpcode .jeq = 0x55 ∧
  OperandFetchFaults .jeq

/-- 44_control_flow.md R78. -/
def Obligations.JneIsTakenWhenEqualIsClear : Prop :=
  (∀ (r : Fin 8) (s : State), exec (.jne (regByte r)) s =
    .next { s with pc := if s.fl.toNat % 2 = 0 then BitVec.ofNat 9 s.x[r].toNat else s.pc + 2 }) ∧
  (∀ (b : Byte) (s : State), 8 ≤ b.toNat →
    exec (.jne b) s = .next { s with err := some (.registerIndexError b (s.pc.toNat + 1)) }) ∧
  (∀ b : Byte, FetchedAs (.jne b) fun opc => [opc .jne, b]) ∧ defaultOpcode .jne = 0x56 ∧
  OperandFetchFaults .jne

/-- 45_halt.md R81: HLT clears `running` and moves `pc` past itself; the machine is then HALTED and no step changes it. -/
def Obligations.HltHaltsForGood : Prop :=
  (∀ s : State, exec .hlt s = .next { s with running := false, pc := s.pc + 1 }) ∧
  (∀ (opc : OpcodeMap) (s t : State), s.err = none → exec .hlt s = .next t →
    t.status = .halted ∧ stepWith opc t = .next t) ∧
  (FetchedAs .hlt fun opc => [opc .hlt]) ∧ defaultOpcode .hlt = 0x01

/-! ## What instructions do together -/

/-- 42_alu.md R70: after a CMP exactly one of JEQ and JNE is taken, by whether the registers were equal; with `fl` 0x00,
as it is before the first CMP, JEQ is not taken and JNE is. -/
def Obligations.JumpsFollowTheComparison : Prop :=
  (∀ (a b r : Fin 8) (s : State), ∃ t, exec (.cmp (regByte a) (regByte b)) s = .next t ∧
    (s.x[a] = s.x[b] → t.fl = 0x01 ∧
      exec (.jeq (regByte r)) t = .next { t with pc := BitVec.ofNat 9 s.x[r].toNat } ∧
      exec (.jne (regByte r)) t = .next { t with pc := t.pc + 2 }) ∧
    (s.x[a].toNat < s.x[b].toNat → t.fl = 0x02 ∧
      exec (.jeq (regByte r)) t = .next { t with pc := t.pc + 2 } ∧
      exec (.jne (regByte r)) t = .next { t with pc := BitVec.ofNat 9 s.x[r].toNat }) ∧
    (s.x[b].toNat < s.x[a].toNat → t.fl = 0x04 ∧
      exec (.jeq (regByte r)) t = .next { t with pc := t.pc + 2 } ∧
      exec (.jne (regByte r)) t = .next { t with pc := BitVec.ofNat 9 s.x[r].toNat })) ∧
  (∀ (r : Fin 8) (s : State), s.fl = 0x00 →
    exec (.jeq (regByte r)) s = .next { s with pc := s.pc + 2 } ∧
    exec (.jne (regByte r)) s = .next { s with pc := BitVec.ofNat 9 s.x[r].toNat }) ∧
  State.reset.fl = 0x00

/-- 43_stack.md, stack discipline: PUSH then POP moves the register's value to the other register, restores `sp` and
leaves the byte in its cell. -/
def Obligations.PushThenPopRestores : Prop :=
  ∀ (a b : Fin 8) (s : State), s.mem.wf → 1 ≤ s.sp.toNat → s.sp.toNat ≤ 256 →
    ∃ t u, exec (.push (regByte a)) s = .next t ∧ exec (.pop (regByte b)) t = .next u ∧
      u.x = s.x.set b s.x[a] ∧ u.sp = s.sp ∧ u.mem.read (s.sp.toNat - 1) = s.x[a] ∧
      (∀ c, c ≠ s.sp.toNat - 1 → u.mem.read c = s.mem.read c) ∧ u = { s with x := u.x, mem := u.mem, pc := s.pc + 4 }

/-- 43_stack.md, stack discipline: N PUSHes write the N cells below `sp` in descending order, each once, and lower `sp` by
exactly N; nothing else but `pc` changes. -/
def Obligations.PushManyFillsDownward : Prop :=
  ∀ (rs : List (Fin 8)) (s : State), s.mem.wf → rs.length ≤ s.sp.toNat → s.sp.toNat ≤ 256 →
    ∃ t, execAll (rs.map fun r => .push (regByte r)) s = .next t ∧
      t.sp.toNat = s.sp.toNat - rs.length ∧
      (∀ (k : Nat) (h : k < rs.length), t.mem.read (s.sp.toNat - 1 - k) = s.x[rs[k]]) ∧
      (∀ c, c < s.sp.toNat - rs.length ∨ s.sp.toNat ≤ c → t.mem.read c = s.mem.read c) ∧
      t = { s with mem := t.mem, sp := t.sp, pc := t.pc }

/-- 44_control_flow.md R79: a CALL, and later a RET from a state with the `sp` the CALL left and the saved cell unchanged,
goes to the instruction after the CALL with `sp` as before it. -/
def Obligations.CallThenRetReturns : Prop :=
  ∀ (r : Fin 8) (s t u : State), s.mem.wf → s.pc.toNat ≤ 254 → 1 ≤ s.sp.toNat → s.sp.toNat ≤ 256 →
    exec (.call (regByte r)) s = .next t →
    u.sp = t.sp → u.mem.read (s.sp.toNat - 1) = t.mem.read (s.sp.toNat - 1) →
      ∃ v, exec .ret u = .next v ∧ v.pc.toNat = s.pc.toNat + 2 ∧ v.sp = s.sp ∧ v = { u with pc := v.pc, sp := v.sp }

/-- 20_memory.md R38: a byte a PUSH stores where the next instruction stands is the opcode the next step fetches. -/
def Obligations.PushedByteIsFetchedNext : Prop :=
  ∀ opc : OpcodeMap, opc.Injective → ∀ (r : Fin 8) (s : State), s.status = .active → s.mem.wf →
    holdsBytes s.mem s.pc.toNat [opc .push, regByte r] → s.sp.toNat = s.pc.toNat + 3 → s.sp.toNat ≤ 256 →
      ∃ t, stepWith opc s = .next t ∧
        (s.x[r] = opc .hlt → stepWith opc t = .next { t with running := false, pc := t.pc + 1 }) ∧
        ((∀ m, opc m ≠ s.x[r]) → stepWith opc t =
          .next { t with err := some (.invalidOpcode s.x[r] (s.pc.toNat + 2)) })

/-- 10_state.md R21, 45_halt.md R82: a run that returns has reached a state that is not ACTIVE, by so many steps, and
more fuel gives the same state. -/
def Obligations.RunReturnsOnlyAtAnEnd : Prop :=
  (∀ (opc : OpcodeMap) (n : Nat) (s t : State), runWith opc n s = some t →
    t.status ≠ .active ∧ ∀ m, n ≤ m → runWith opc m s = some t) ∧
  ∀ (n : Nat) (s t : State), run n s = some t → ∃ k, k ≤ n ∧ Sys2Proof.core.run k s = .next t

/-! ## What each instruction leaves unchanged -/

/-- 10_state.md section 1: the only general register that can change is the first operand of LDI, POP, MULT, ADD, INC or
DEC. -/
def Obligations.OnlyDestinationRegistersChange : Prop :=
  ∀ (i : Instr) (s t : State) (r : Fin 8), exec i s = .next t → t.x[r] ≠ s.x[r] →
    i.mnemonic ∈ [Mnemonic.ldi, .pop, .mult, .add, .inc, .dec] ∧ i.operands.head? = some (regByte r)

/-- 10_state.md section 4: only CMP changes `fl`, and then to exactly one of 0x01, 0x02, 0x04. -/
def Obligations.OnlyCmpChangesFlags : Prop :=
  ∀ (i : Instr) (s t : State), exec i s = .next t →
    (i.mnemonic ≠ .cmp → t.fl = s.fl) ∧
    (i.mnemonic = .cmp → t.err = s.err → i.wellFormed = true → t.fl = 0x01 ∨ t.fl = 0x02 ∨ t.fl = 0x04)

/-- 10_state.md section 4: no instruction but JEQ and JNE reads `fl`, and they read bit 0 alone: what `fl` holds changes
nothing an instruction does but `fl` itself, and for JEQ and JNE only bit 0 matters. -/
def Obligations.FlagsReachOnlyTheConditionalJumps : Prop :=
  (∀ (i : Instr) (s t : State) (v : Byte), i.mnemonic ≠ .jeq → i.mnemonic ≠ .jne → exec i s = .next t →
    ∃ w, exec i { s with fl := v } = .next { t with fl := w }) ∧
  (∀ (i : Instr) (s t : State) (v : Byte), i.mnemonic ≠ .cmp → v.getLsbD 0 = s.fl.getLsbD 0 → exec i s = .next t →
    exec i { s with fl := v } = .next { t with fl := v })

/-- 10_state.md section 6: `out` changes only by a PRN of a register, which appends that register's byte. -/
def Obligations.OnlyPrnChangesOutput : Prop :=
  ∀ (i : Instr) (s t : State), exec i s = .next t →
    t.out = s.out ∨ ∃ r : Fin 8, i = .prn (regByte r) ∧ t.out = s.out ++ [s.x[r]]

/-- 20_memory.md section 1: PUSH and CALL store to `pushAddr` and leave every other cell as it was; every other instruction
leaves every cell; where the address is outside memory nothing is stored. -/
def Obligations.OnlyPushAndCallStore : Prop :=
  ∀ (i : Instr) (s t : State), s.mem.wf → exec i s = .next t →
    (i.mnemonic ≠ .push → i.mnemonic ≠ .call → ∀ b, t.mem.read b = s.mem.read b) ∧
    (∀ a : Nat, (a : Int) = s.pushAddr → ∀ b, b ≠ a → t.mem.read b = s.mem.read b) ∧
    (s.pushAddr < 0 ∨ 255 < s.pushAddr → ∀ b, t.mem.read b = s.mem.read b)

/-- 10_state.md section 3: only PUSH, CALL, POP and RET change `sp`, the first two down by 1 and the last two up by 1,
exactly. -/
def Obligations.OnlyStackInstructionsMoveSp : Prop :=
  ∀ (i : Instr) (s t : State), exec i s = .next t →
    t.sp = s.sp ∨
    (i.mnemonic ∈ [Mnemonic.push, .call] ∧ t.sp.toNat + 1 = s.sp.toNat) ∨
    (i.mnemonic ∈ [Mnemonic.pop, .ret] ∧ t.sp.toNat = s.sp.toNat + 1)

/-- 10_state.md section 5: only HLT changes `running`, to false, and no step makes it true. -/
def Obligations.OnlyHltClearsRunning : Prop :=
  ∀ (i : Instr) (s t : State), exec i s = .next t → t.running = if i = .hlt then false else s.running

/-- 10_state.md section 2: the value each completed instruction leaves in `pc`, exactly and without wrapping; a raised
error leaves `pc` as it was. -/
def Obligations.PcAfterEachInstruction : Prop :=
  ∀ (i : Instr) (s t : State), s.pc.toNat + i.length ≤ 256 → exec i s = .next t →
    (t.err ≠ s.err → t.pc = s.pc) ∧
    (s.err = none → t.err = none →
      match i with
      | .ldi _ _ | .mult _ _ | .add _ _ | .cmp _ _ => t.pc.toNat = s.pc.toNat + 3
      | .prn _ | .inc _ | .dec _ | .push _ | .pop _ => t.pc.toNat = s.pc.toNat + 2
      | .hlt => t.pc.toNat = s.pc.toNat + 1
      | .jmp b | .call b => ∃ r : Fin 8, b = regByte r ∧ t.pc.toNat = s.x[r].toNat
      | .jeq b => ∃ r : Fin 8, b = regByte r ∧
          t.pc.toNat = if s.fl.getLsbD 0 then s.x[r].toNat else s.pc.toNat + 2
      | .jne b => ∃ r : Fin 8, b = regByte r ∧
          t.pc.toNat = if s.fl.getLsbD 0 then s.pc.toNat + 2 else s.x[r].toNat
      | .ret => t.pc.toNat = (s.mem.read s.sp.toNat).toNat + 2)
end

