-- ==== Sys2Proof/Laws/Decode.lean ====
section
/-! SUPPORT. What the decoder and the encoder do: looking an opcode up, reading operand bytes, the shape of an encoding. -/

namespace Sys2Proof

/-! ### The opcode table -/

theorem mem_allMnemonics (m : Mnemonic) : m ∈ allMnemonics := by cases m <;> decide

/-- The default opcode values are fifteen different bytes (30_encoding.md R45). -/
theorem defaultOpcode_injective : OpcodeMap.Injective defaultOpcode := by
  intro m n h
  cases m <;> cases n <;> first | rfl | exact absurd h (by decide)

theorem opcodeLookup_some {opc : OpcodeMap} {op : Byte} {m : Mnemonic} (h : opcodeLookup opc op = some m) :
    opc m = op := by
  simpa using List.find?_some h

theorem opcodeLookup_opc {opc : OpcodeMap} (hopc : opc.Injective) (m : Mnemonic) :
    opcodeLookup opc (opc m) = some m := by
  cases h : opcodeLookup opc (opc m) with
  | none =>
    have := List.find?_eq_none.1 h m (mem_allMnemonics m)
    simp at this
  | some n => rw [hopc n m (opcodeLookup_some h)]

theorem opcodeLookup_eq_none_iff {opc : OpcodeMap} {op : Byte} :
    opcodeLookup opc op = none ↔ ∀ m, opc m ≠ op := by
  constructor
  · intro h m
    simpa using List.find?_eq_none.1 h m (mem_allMnemonics m)
  · intro h
    exact List.find?_eq_none.2 fun m _ => by simpa using h m

/-! ### The operand bytes -/

theorem Instr.length_operands (i : Instr) : i.operands.length = i.mnemonic.operandCount := by cases i <;> rfl

/-- An instruction's length is at most three. -/
theorem Mnemonic.operandCount_le (m : Mnemonic) : m.operandCount ≤ 2 := by cases m <;> decide

theorem encodeWith_eq (opc : OpcodeMap) (i : Instr) : encodeWith opc i = opc i.mnemonic :: i.operands := by
  cases i <;> rfl

theorem length_encodeWith (opc : OpcodeMap) (i : Instr) : (encodeWith opc i).length = i.length := by
  cases i <;> rfl

/-- An instruction is its mnemonic and its operand bytes. -/
theorem Instr.ext_of_operands {i j : Instr} (hm : i.mnemonic = j.mnemonic) (ho : i.operands = j.operands) : i = j := by
  cases i <;> cases j <;> simp_all [Instr.mnemonic, Instr.operands]

section Operands

variable {ε : Type} {byteAt : Nat → Except ε Byte}

/-- Where the source has the operand bytes, the instruction is read. -/
theorem decodeOperands_ok (i : Instr)
    (h : ∀ k (hk : k < i.operands.length), byteAt (k + 1) = .ok i.operands[k]) :
    decodeOperands byteAt i.mnemonic = .ok i := by
  cases i <;>
    simp only [Instr.operands, Instr.mnemonic, decodeOperands] at h ⊢ <;>
    first
    | rfl
    | (have h0 := h 0 (by simp); have h1 := h 1 (by simp)
       simp only [Nat.reduceAdd, List.getElem_cons_zero, List.getElem_cons_succ] at h0 h1
       rw [h0, h1]; rfl)
    | (have h0 := h 0 (by simp)
       simp only [Nat.reduceAdd, List.getElem_cons_zero] at h0
       rw [h0]; rfl)

/-- What was read has the mnemonic asked for, and its operand bytes are those of the source. -/
theorem decodeOperands_inv {m : Mnemonic} {i : Instr} (h : decodeOperands byteAt m = .ok i) :
    i.mnemonic = m ∧ ∀ k (hk : k < i.operands.length), byteAt (k + 1) = .ok i.operands[k] := by
  have two : ∀ f : Byte → Byte → Instr,
      (do let a ← byteAt 1; let b ← byteAt 2; return f a b : Except ε Instr) = .ok i →
        ∃ a b, byteAt 1 = .ok a ∧ byteAt 2 = .ok b ∧ f a b = i := by
    intro f h
    cases h1 : byteAt 1 with
    | error e => rw [h1] at h; cases h
    | ok a =>
      cases h2 : byteAt 2 with
      | error e => rw [h1, h2] at h; cases h
      | ok b => rw [h1, h2] at h; exact ⟨a, b, rfl, rfl, by injection h⟩
  have one : ∀ f : Byte → Instr,
      (do let a ← byteAt 1; return f a : Except ε Instr) = .ok i → ∃ a, byteAt 1 = .ok a ∧ f a = i := by
    intro f h
    cases h1 : byteAt 1 with
    | error e => rw [h1] at h; cases h
    | ok a => rw [h1] at h; exact ⟨a, rfl, by injection h⟩
  have read2 : ∀ {a b : Byte}, byteAt 1 = .ok a → byteAt 2 = .ok b →
      ∀ k (hk : k < [a, b].length), byteAt (k + 1) = .ok [a, b][k] := by
    intro a b h1 h2 k hk
    match k, hk with
    | 0, _ => exact h1
    | 1, _ => exact h2
  have read1 : ∀ {a : Byte}, byteAt 1 = .ok a → ∀ k (hk : k < [a].length), byteAt (k + 1) = .ok [a][k] := by
    intro a h1 k hk
    match k, hk with
    | 0, _ => exact h1
  cases m <;> simp only [decodeOperands] at h <;>
    first
    | (obtain ⟨a, b, h1, h2, rfl⟩ := two _ h; exact ⟨rfl, read2 h1 h2⟩)
    | (obtain ⟨a, h1, rfl⟩ := one _ h; exact ⟨rfl, read1 h1⟩)
    | (injection h with h; subst h; exact ⟨rfl, fun k hk => absurd hk (by simp [Instr.operands])⟩)

/-- Everything the decoder does when it reads an instruction. -/
theorem decodeFrom_ok_iff {opc : OpcodeMap} {illegal : Byte → ε} {i : Instr} :
    decodeFrom opc byteAt illegal = .ok i ↔
      ∃ op, byteAt 0 = .ok op ∧ opcodeLookup opc op = some i.mnemonic ∧
        ∀ k (hk : k < i.operands.length), byteAt (k + 1) = .ok i.operands[k] := by
  constructor
  · intro h
    unfold decodeFrom at h
    cases h0 : byteAt 0 with
    | error e => rw [h0] at h; cases h
    | ok op =>
      rw [h0] at h
      change (match opcodeLookup opc op with
        | some m => decodeOperands byteAt m
        | none => throw (illegal op)) = Except.ok i at h
      cases hl : opcodeLookup opc op with
      | none => rw [hl] at h; cases h
      | some m =>
        rw [hl] at h
        obtain ⟨rfl, hk⟩ := decodeOperands_inv h
        exact ⟨op, rfl, hl, hk⟩
  · rintro ⟨op, h0, hl, hk⟩
    unfold decodeFrom
    rw [h0]
    change (match opcodeLookup opc op with
      | some m => decodeOperands byteAt m
      | none => throw (illegal op)) = Except.ok i
    rw [hl]
    exact decodeOperands_ok i hk

/-- A source with no opcode byte gives its own error. -/
theorem decodeFrom_noByte {opc : OpcodeMap} {illegal : Byte → ε} {e : ε} (h : byteAt 0 = .error e) :
    decodeFrom opc byteAt illegal = .error e := by
  unfold decodeFrom; rw [h]; rfl

/-- A byte that is no opcode is rejected by name. -/
theorem decodeFrom_illegal {opc : OpcodeMap} {illegal : Byte → ε} {op : Byte} (h : byteAt 0 = .ok op)
    (hl : opcodeLookup opc op = none) : decodeFrom opc byteAt illegal = .error (illegal op) := by
  unfold decodeFrom; rw [h]
  change (match opcodeLookup opc op with
    | some m => decodeOperands byteAt m
    | none => throw (illegal op)) = Except.error (illegal op)
  rw [hl]; rfl

/-- After a known opcode the operand bytes decide. -/
theorem decodeFrom_known {opc : OpcodeMap} {illegal : Byte → ε} {op : Byte} {m : Mnemonic} (h : byteAt 0 = .ok op)
    (hl : opcodeLookup opc op = some m) : decodeFrom opc byteAt illegal = decodeOperands byteAt m := by
  unfold decodeFrom; rw [h]
  change (match opcodeLookup opc op with
    | some m => decodeOperands byteAt m
    | none => throw (illegal op)) = decodeOperands byteAt m
  rw [hl]

/-- A missing first operand byte is what an instruction with operands fails with. -/
theorem decodeOperands_missing1 {m : Mnemonic} {e : ε} (hm : 1 ≤ m.operandCount) (h : byteAt 1 = .error e) :
    decodeOperands byteAt m = .error e := by
  cases m <;> first | exact absurd hm (by decide) | (simp only [decodeOperands, h]; rfl)

/-- A missing second operand byte, the first being there, is what a three-byte instruction fails with. -/
theorem decodeOperands_missing2 {m : Mnemonic} {e : ε} {b : Byte} (hm : m.operandCount = 2) (h1 : byteAt 1 = .ok b)
    (h2 : byteAt 2 = .error e) : decodeOperands byteAt m = .error e := by
  cases m <;> first | exact absurd hm (by decide) | (simp only [decodeOperands, h1, h2]; rfl)

end Operands

theorem listByte_of_lt {bytes : List Byte} {k : Nat} (h : k < bytes.length) : listByte bytes k = .ok bytes[k] := by
  simp [listByte, h]; rfl

theorem listByte_eq_ok_iff {bytes : List Byte} {k : Nat} {b : Byte} :
    listByte bytes k = .ok b ↔ bytes[k]? = some b := by
  unfold listByte
  cases bytes[k]? with
  | none =>
    constructor
    · intro h; cases h
    · intro h; cases h
  | some c =>
    constructor
    · intro h; injection h with h; rw [h]
    · intro h; injection h with h; rw [h]; rfl

end Sys2Proof
end

