-- ==== Sys2Proof/Laws/Memory.lean ====
section
/-! SUPPORT. The laws of memory: a read after a write, the canonical form and what it is for. -/

namespace Sys2Proof.Machine

namespace Memory

@[simp] theorem read_nil (a : Nat) : read [] a = unlisted := rfl

@[simp] theorem read_cons (k : Nat) (b : Byte) (m : Memory) (a : Nat) :
    read ((k, b) :: m) a = if k = a then b else read m a := rfl

theorem wf_nil : wf [] := by simp [wf]

/-- A canonical memory is a first entry and a canonical memory above it. -/
theorem wf_cons_iff (k : Nat) (b : Byte) (m : Memory) :
    wf ((k, b) :: m) ↔ (∀ c ∈ m, k < c.1) ∧ k < Config.memSize ∧ b ≠ unlisted ∧ wf m := by
  simp only [wf, List.pairwise_cons, List.mem_cons, forall_eq_or_imp]
  tauto

/-- Below the first entry every address reads as unlisted. -/
theorem read_of_below (m : Memory) (a : Nat) (h : ∀ c ∈ m, a < c.1) : m.read a = unlisted := by
  induction m with
  | nil => rfl
  | cons c m ih =>
    have hc : c.1 ≠ a := by have := h c (by simp); omega
    rw [show c = (c.1, c.2) from rfl, read_cons, if_neg hc]
    exact ih fun d hd => h d (by simp [hd])

theorem read_consEntry (m : Memory) (k a : Nat) (v : Byte) (h : ∀ c ∈ m, k < c.1) :
    (cons k v m).read a = if k = a then v else m.read a := by
  unfold cons
  split
  · next hv =>
    split
    · next hk => subst hk; rw [hv]; exact read_of_below m k h
    · rfl
  · rfl

/-- Every entry of a written memory is an entry of the old one or the one written. -/
theorem mem_write (m : Memory) (a : Nat) (v : Byte) (c : Host.Cell) (h : c ∈ m.write a v) :
    c ∈ m ∨ (c = (a, v) ∧ v ≠ unlisted) := by
  induction m with
  | nil =>
    unfold write cons at h
    split at h <;> simp_all
  | cons d m ih =>
    obtain ⟨k, b⟩ := d
    simp only [write, cons] at h
    split at h
    · (split at h <;> simp_all); tauto
    · split at h
      · (split at h <;> simp_all); tauto
      · simp only [List.mem_cons] at h ⊢
        rcases h with h | h
        · exact .inl (.inl h)
        · rcases ih h with h | h
          · exact .inl (.inr h)
          · exact .inr h

/-- A write keeps the canonical form. -/
theorem write_wf (m : Memory) (a : Nat) (v : Byte) (h : wf m) (ha : a < Config.memSize) : wf (m.write a v) := by
  induction m with
  | nil =>
    unfold write cons
    split
    · exact wf_nil
    · next hv => exact (wf_cons_iff _ _ _).2 ⟨by simp, ha, hv, wf_nil⟩
  | cons d m ih =>
    obtain ⟨k, b⟩ := d
    obtain ⟨hlt, hk, hb, hm⟩ := (wf_cons_iff k b m).1 h
    simp only [write, cons]
    split
    · next hak =>
      split
      · exact h
      · next hv =>
        refine (wf_cons_iff _ _ _).2 ⟨?_, ha, hv, h⟩
        intro c hc
        rcases List.mem_cons.1 hc with rfl | hc
        · exact hak
        · exact lt_trans hak (hlt c hc)
    · split
      · next hak =>
        subst hak
        split
        · exact hm
        · next hv => exact (wf_cons_iff _ _ _).2 ⟨hlt, ha, hv, hm⟩
      · refine (wf_cons_iff _ _ _).2 ⟨?_, hk, hb, ih hm⟩
        intro c hc
        rcases mem_write m a v c hc with hc | ⟨rfl, -⟩
        · exact hlt c hc
        · show k < a; omega

/-- What a read gives after a write to a canonical memory. -/
theorem read_write (m : Memory) (a : Nat) (v : Byte) (h : wf m) (b : Nat) :
    (m.write a v).read b = if a = b then v else m.read b := by
  induction m with
  | nil => exact read_consEntry [] a b v (by simp)
  | cons d m ih =>
    obtain ⟨k, w⟩ := d
    obtain ⟨hlt, -, -, hm⟩ := (wf_cons_iff k w m).1 h
    simp only [write]
    split
    · next hak =>
      refine read_consEntry _ _ _ _ ?_
      intro c hc
      rcases List.mem_cons.1 hc with rfl | hc
      · exact hak
      · exact lt_trans hak (hlt c hc)
    · split
      · next hak =>
        subst hak
        rw [read_consEntry _ _ _ _ hlt, read_cons]
        split <;> rfl
      · next hne =>
        rw [read_cons, ih hm, read_cons]
        by_cases hk : k = b
        · have : a ≠ b := by omega
          simp [hk, this]
        · simp [hk]

/-- In the canonical form equal memories are equal data. -/
theorem ext_of_wf (m n : Memory) (hm : wf m) (hn : wf n) (h : ∀ a, m.read a = n.read a) : m = n := by
  induction m generalizing n with
  | nil =>
    cases n with
    | nil => rfl
    | cons d n =>
      have hd := (wf_cons_iff d.1 d.2 n).1 hn
      have := h d.1
      rw [show d = (d.1, d.2) from rfl, read_cons, if_pos rfl] at this
      exact absurd this.symm hd.2.2.1
  | cons c m ih =>
    have hc := (wf_cons_iff c.1 c.2 m).1 hm
    have hcr : read (c :: m) c.1 = c.2 := by rw [show c = (c.1, c.2) from rfl, read_cons, if_pos rfl]
    cases n with
    | nil => exact absurd ((h c.1).symm.trans hcr).symm hc.2.2.1
    | cons d n =>
      have hd := (wf_cons_iff d.1 d.2 n).1 hn
      have hdr : read (d :: n) d.1 = d.2 := by rw [show d = (d.1, d.2) from rfl, read_cons, if_pos rfl]
      have hcd : c.1 = d.1 := by
        rcases Nat.lt_trichotomy c.1 d.1 with hlt | heq | hgt
        · have h0 : read (d :: n) c.1 = unlisted := read_of_below _ _ fun e he => by
            rcases List.mem_cons.1 he with rfl | he
            · exact hlt
            · exact lt_trans hlt (hd.1 e he)
          exact absurd (hcr.symm.trans ((h c.1).trans h0)) hc.2.2.1
        · exact heq
        · have h0 : read (c :: m) d.1 = unlisted := read_of_below _ _ fun e he => by
            rcases List.mem_cons.1 he with rfl | he
            · exact hgt
            · exact lt_trans hgt (hc.1 e he)
          exact absurd (hdr.symm.trans ((h d.1).symm.trans h0)) hd.2.2.1
      have hb : c.2 = d.2 := by rw [← hcr, h c.1, hcd, hdr]
      have hcd' : c = d := Prod.ext hcd hb
      subst hcd'
      congr 1
      refine ih n hc.2.2.2 hd.2.2.2 fun a => ?_
      by_cases ha : c.1 = a
      · subst ha; rw [read_of_below m _ hc.1, read_of_below n _ hd.1]
      · have := h a
        rw [show c = (c.1, c.2) from rfl, read_cons, read_cons, if_neg ha, if_neg ha] at this
        exact this

/-- Writing bytes into consecutive cells keeps the canonical form. -/
theorem writeBytes_wf (bs : List Byte) (m : Memory) (a : Nat) (h : wf m) : wf (m.writeBytes a bs) := by
  induction bs generalizing m a with
  | nil => exact h
  | cons b bs ih =>
    unfold writeBytes
    refine ih _ _ ?_
    split
    · next ha => exact write_wf m a b h ha
    · exact h

/-- What a read gives after bytes were written into consecutive cells. -/
theorem read_writeBytes (bs : List Byte) (m : Memory) (a : Nat) (h : wf m) (b : Nat) :
    (m.writeBytes a bs).read b =
      if a ≤ b ∧ b < Config.memSize then (bs[b - a]?).getD (m.read b) else m.read b := by
  induction bs generalizing m a with
  | nil => simp [writeBytes]
  | cons v bs ih =>
    have hwf : wf (if a < Config.memSize then m.write a v else m) := by
      split
      · next ha => exact write_wf m a v h ha
      · exact h
    have hread : (if a < Config.memSize then m.write a v else m).read b =
        if a = b ∧ b < Config.memSize then v else m.read b := by
      by_cases ha : a < Config.memSize
      · rw [if_pos ha, read_write m a v h]
        by_cases hab : a = b
        · subst hab; simp [ha]
        · simp [hab]
      · rw [if_neg ha, if_neg]
        omega
    rw [writeBytes, ih _ _ hwf, hread]
    by_cases hb : b < Config.memSize
    · rcases Nat.lt_trichotomy a b with hab | hab | hab
      · obtain ⟨d, hd⟩ : ∃ d, b - a = d + 1 := ⟨b - a - 1, by omega⟩
        have hd' : b - (a + 1) = d := by omega
        have hne : ¬ (a = b ∧ b < Config.memSize) := by omega
        rw [if_neg hne, if_pos ⟨hab, hb⟩, if_pos ⟨hab.le, hb⟩, hd, hd', List.getElem?_cons_succ]
      · subst hab
        simp [hb]
      · rw [if_neg (by omega), if_neg (by omega), if_neg (by omega)]
    · simp [hb]

end Memory

end Sys2Proof.Machine
end

