-- ==== Sys2Proof/Laws/State.lean ====
section
/-! SUPPORT. One lemma per field per update of the state, each true by rfl, and the fields after reset. -/

namespace Sys2Proof.Machine

variable (s : State)

/-! ### `State.withX` -/

@[simp] theorem State.withX_x (v : Vector Byte 8) : (s.withX v).x = v := rfl
@[simp] theorem State.withX_pc (v : Vector Byte 8) : (s.withX v).pc = s.pc := rfl
@[simp] theorem State.withX_sp (v : Vector Byte 8) : (s.withX v).sp = s.sp := rfl
@[simp] theorem State.withX_fl (v : Vector Byte 8) : (s.withX v).fl = s.fl := rfl
@[simp] theorem State.withX_running (v : Vector Byte 8) : (s.withX v).running = s.running := rfl
@[simp] theorem State.withX_err (v : Vector Byte 8) : (s.withX v).err = s.err := rfl
@[simp] theorem State.withX_mem (v : Vector Byte 8) : (s.withX v).mem = s.mem := rfl
@[simp] theorem State.withX_out (v : Vector Byte 8) : (s.withX v).out = s.out := rfl

/-! ### `State.withPc` -/

@[simp] theorem State.withPc_x (v : Ptr) : (s.withPc v).x = s.x := rfl
@[simp] theorem State.withPc_pc (v : Ptr) : (s.withPc v).pc = v := rfl
@[simp] theorem State.withPc_sp (v : Ptr) : (s.withPc v).sp = s.sp := rfl
@[simp] theorem State.withPc_fl (v : Ptr) : (s.withPc v).fl = s.fl := rfl
@[simp] theorem State.withPc_running (v : Ptr) : (s.withPc v).running = s.running := rfl
@[simp] theorem State.withPc_err (v : Ptr) : (s.withPc v).err = s.err := rfl
@[simp] theorem State.withPc_mem (v : Ptr) : (s.withPc v).mem = s.mem := rfl
@[simp] theorem State.withPc_out (v : Ptr) : (s.withPc v).out = s.out := rfl

/-! ### `State.withSp` -/

@[simp] theorem State.withSp_x (v : Ptr) : (s.withSp v).x = s.x := rfl
@[simp] theorem State.withSp_pc (v : Ptr) : (s.withSp v).pc = s.pc := rfl
@[simp] theorem State.withSp_sp (v : Ptr) : (s.withSp v).sp = v := rfl
@[simp] theorem State.withSp_fl (v : Ptr) : (s.withSp v).fl = s.fl := rfl
@[simp] theorem State.withSp_running (v : Ptr) : (s.withSp v).running = s.running := rfl
@[simp] theorem State.withSp_err (v : Ptr) : (s.withSp v).err = s.err := rfl
@[simp] theorem State.withSp_mem (v : Ptr) : (s.withSp v).mem = s.mem := rfl
@[simp] theorem State.withSp_out (v : Ptr) : (s.withSp v).out = s.out := rfl

/-! ### `State.withFl` -/

@[simp] theorem State.withFl_x (v : Byte) : (s.withFl v).x = s.x := rfl
@[simp] theorem State.withFl_pc (v : Byte) : (s.withFl v).pc = s.pc := rfl
@[simp] theorem State.withFl_sp (v : Byte) : (s.withFl v).sp = s.sp := rfl
@[simp] theorem State.withFl_fl (v : Byte) : (s.withFl v).fl = v := rfl
@[simp] theorem State.withFl_running (v : Byte) : (s.withFl v).running = s.running := rfl
@[simp] theorem State.withFl_err (v : Byte) : (s.withFl v).err = s.err := rfl
@[simp] theorem State.withFl_mem (v : Byte) : (s.withFl v).mem = s.mem := rfl
@[simp] theorem State.withFl_out (v : Byte) : (s.withFl v).out = s.out := rfl

/-! ### `State.withRunning` -/

@[simp] theorem State.withRunning_x (v : Bool) : (s.withRunning v).x = s.x := rfl
@[simp] theorem State.withRunning_pc (v : Bool) : (s.withRunning v).pc = s.pc := rfl
@[simp] theorem State.withRunning_sp (v : Bool) : (s.withRunning v).sp = s.sp := rfl
@[simp] theorem State.withRunning_fl (v : Bool) : (s.withRunning v).fl = s.fl := rfl
@[simp] theorem State.withRunning_running (v : Bool) : (s.withRunning v).running = v := rfl
@[simp] theorem State.withRunning_err (v : Bool) : (s.withRunning v).err = s.err := rfl
@[simp] theorem State.withRunning_mem (v : Bool) : (s.withRunning v).mem = s.mem := rfl
@[simp] theorem State.withRunning_out (v : Bool) : (s.withRunning v).out = s.out := rfl

/-! ### `State.withErr` -/

@[simp] theorem State.withErr_x (v : Option Err) : (s.withErr v).x = s.x := rfl
@[simp] theorem State.withErr_pc (v : Option Err) : (s.withErr v).pc = s.pc := rfl
@[simp] theorem State.withErr_sp (v : Option Err) : (s.withErr v).sp = s.sp := rfl
@[simp] theorem State.withErr_fl (v : Option Err) : (s.withErr v).fl = s.fl := rfl
@[simp] theorem State.withErr_running (v : Option Err) : (s.withErr v).running = s.running := rfl
@[simp] theorem State.withErr_err (v : Option Err) : (s.withErr v).err = v := rfl
@[simp] theorem State.withErr_mem (v : Option Err) : (s.withErr v).mem = s.mem := rfl
@[simp] theorem State.withErr_out (v : Option Err) : (s.withErr v).out = s.out := rfl

/-! ### `State.withMem` -/

@[simp] theorem State.withMem_x (v : Memory) : (s.withMem v).x = s.x := rfl
@[simp] theorem State.withMem_pc (v : Memory) : (s.withMem v).pc = s.pc := rfl
@[simp] theorem State.withMem_sp (v : Memory) : (s.withMem v).sp = s.sp := rfl
@[simp] theorem State.withMem_fl (v : Memory) : (s.withMem v).fl = s.fl := rfl
@[simp] theorem State.withMem_running (v : Memory) : (s.withMem v).running = s.running := rfl
@[simp] theorem State.withMem_err (v : Memory) : (s.withMem v).err = s.err := rfl
@[simp] theorem State.withMem_mem (v : Memory) : (s.withMem v).mem = v := rfl
@[simp] theorem State.withMem_out (v : Memory) : (s.withMem v).out = s.out := rfl

/-! ### `State.withOut` -/

@[simp] theorem State.withOut_x (v : List Byte) : (s.withOut v).x = s.x := rfl
@[simp] theorem State.withOut_pc (v : List Byte) : (s.withOut v).pc = s.pc := rfl
@[simp] theorem State.withOut_sp (v : List Byte) : (s.withOut v).sp = s.sp := rfl
@[simp] theorem State.withOut_fl (v : List Byte) : (s.withOut v).fl = s.fl := rfl
@[simp] theorem State.withOut_running (v : List Byte) : (s.withOut v).running = s.running := rfl
@[simp] theorem State.withOut_err (v : List Byte) : (s.withOut v).err = s.err := rfl
@[simp] theorem State.withOut_mem (v : List Byte) : (s.withOut v).mem = s.mem := rfl
@[simp] theorem State.withOut_out (v : List Byte) : (s.withOut v).out = v := rfl

/-! ### The updates made of them: only the field they set changes -/

@[simp] theorem State.writeReg_x (r : Fin 8) (v : Byte) : (s.writeReg r v).x = s.x.set r v := rfl
@[simp] theorem State.writeReg_pc (r : Fin 8) (v : Byte) : (s.writeReg r v).pc = s.pc := rfl
@[simp] theorem State.writeReg_sp (r : Fin 8) (v : Byte) : (s.writeReg r v).sp = s.sp := rfl
@[simp] theorem State.writeReg_fl (r : Fin 8) (v : Byte) : (s.writeReg r v).fl = s.fl := rfl
@[simp] theorem State.writeReg_running (r : Fin 8) (v : Byte) : (s.writeReg r v).running = s.running := rfl
@[simp] theorem State.writeReg_err (r : Fin 8) (v : Byte) : (s.writeReg r v).err = s.err := rfl
@[simp] theorem State.writeReg_mem (r : Fin 8) (v : Byte) : (s.writeReg r v).mem = s.mem := rfl
@[simp] theorem State.writeReg_out (r : Fin 8) (v : Byte) : (s.writeReg r v).out = s.out := rfl

@[simp] theorem State.advance_x (n : Nat) : (s.advance n).x = s.x := rfl
@[simp] theorem State.advance_pc (n : Nat) : (s.advance n).pc = s.pc + BitVec.ofNat 9 n := rfl
@[simp] theorem State.advance_sp (n : Nat) : (s.advance n).sp = s.sp := rfl
@[simp] theorem State.advance_fl (n : Nat) : (s.advance n).fl = s.fl := rfl
@[simp] theorem State.advance_running (n : Nat) : (s.advance n).running = s.running := rfl
@[simp] theorem State.advance_err (n : Nat) : (s.advance n).err = s.err := rfl
@[simp] theorem State.advance_mem (n : Nat) : (s.advance n).mem = s.mem := rfl
@[simp] theorem State.advance_out (n : Nat) : (s.advance n).out = s.out := rfl

@[simp] theorem State.emit_x (v : Byte) : (s.emit v).x = s.x := rfl
@[simp] theorem State.emit_pc (v : Byte) : (s.emit v).pc = s.pc := rfl
@[simp] theorem State.emit_sp (v : Byte) : (s.emit v).sp = s.sp := rfl
@[simp] theorem State.emit_fl (v : Byte) : (s.emit v).fl = s.fl := rfl
@[simp] theorem State.emit_running (v : Byte) : (s.emit v).running = s.running := rfl
@[simp] theorem State.emit_err (v : Byte) : (s.emit v).err = s.err := rfl
@[simp] theorem State.emit_mem (v : Byte) : (s.emit v).mem = s.mem := rfl
@[simp] theorem State.emit_out (v : Byte) : (s.emit v).out = s.out ++ [v] := rfl

@[simp] theorem State.jumpTo_x (r : Fin 8) : (s.jumpTo r).x = s.x := rfl
@[simp] theorem State.jumpTo_pc (r : Fin 8) : (s.jumpTo r).pc = zext9 (s.readReg r) := rfl
@[simp] theorem State.jumpTo_sp (r : Fin 8) : (s.jumpTo r).sp = s.sp := rfl
@[simp] theorem State.jumpTo_fl (r : Fin 8) : (s.jumpTo r).fl = s.fl := rfl
@[simp] theorem State.jumpTo_running (r : Fin 8) : (s.jumpTo r).running = s.running := rfl
@[simp] theorem State.jumpTo_err (r : Fin 8) : (s.jumpTo r).err = s.err := rfl
@[simp] theorem State.jumpTo_mem (r : Fin 8) : (s.jumpTo r).mem = s.mem := rfl
@[simp] theorem State.jumpTo_out (r : Fin 8) : (s.jumpTo r).out = s.out := rfl

/-! ### Reading registers -/

theorem State.readReg_eq (r : Fin 8) : s.readReg r = s.x[r] := rfl

/-- A register reads back what was written to it, and the others read as before. -/
@[simp] theorem State.readReg_writeReg (q r : Fin 8) (v : Byte) :
    (s.writeReg q v).readReg r = if q = r then v else s.readReg r := by
  simp [State.readReg, State.writeReg, State.withX, Vector.getElem_set, Fin.ext_iff]

/-- After reset every general register reads as its reset value. -/
@[simp] theorem State.readReg_reset (r : Fin 8) : State.reset.readReg r = Config.regReset := by
  simp [State.readReg, State.reset]

/-! ### The status -/

theorem State.status_active_iff : s.status = .active ↔ s.err = none ∧ s.running = true := by
  unfold State.status; split <;> simp_all

theorem State.status_halted_iff : s.status = .halted ↔ s.err = none ∧ s.running = false := by
  unfold State.status; split <;> simp_all

theorem State.status_faulted_iff : s.status = .faulted ↔ s.err ≠ none := by
  unfold State.status; split <;> simp_all

end Sys2Proof.Machine
end

