-- ==== Sys2Proof/Laws/Ops.lean ====
section
/-! SUPPORT. For each shared operation, what it can do: memory access, register operands, the stack, the ALU, raising and
settling. Later proofs cite these and do not unfold the operations. -/

namespace Sys2Proof.Machine

/-! ### Memory access -/

theorem memRead_of_le (m : Memory) (a : Nat) (h : a ≤ 255) : memRead m a = .ok (m.read a) := by
  have : ¬ ((a : Int) < 0 ∨ (a : Int) > 255) := by omega
  rw [memRead, if_neg this]; rfl

theorem memRead_of_outside (m : Memory) (a : Int) (h : a < 0 ∨ a > 255) :
    memRead m a = .error (.addressError a) := by
  rw [memRead, if_pos h]; rfl

theorem memWrite_of_le (m : Memory) (a : Nat) (v : Byte) (h : a ≤ 255) : memWrite m a v = .ok (m.write a v) := by
  have : ¬ ((a : Int) < 0 ∨ (a : Int) > 255) := by omega
  rw [memWrite, if_neg this]; rfl

theorem memWrite_of_outside (m : Memory) (a : Int) (v : Byte) (h : a < 0 ∨ a > 255) :
    memWrite m a v = .error (.addressError a) := by
  rw [memWrite, if_pos h]; rfl

/-! ### Register operands -/

@[simp] theorem toNat_regByte (r : Fin 8) : (regByte r).toNat = r.val := by
  have := r.isLt
  simp only [regByte, BitVec.toNat_ofNat]
  omega

@[simp] theorem regIdx_regByte (r : Fin 8) (loc : Nat) : regIdx (regByte r) loc = .ok r := by
  have h : (regByte r).toNat < 8 := by simp
  rw [regIdx, dif_pos h]
  congr 1
  exact Fin.ext (toNat_regByte r)

theorem regIdx_of_ge (b : Byte) (loc : Nat) (h : 8 ≤ b.toNat) :
    regIdx b loc = .error (.registerIndexError b loc) := by
  rw [regIdx, dif_neg (by omega)]; rfl

/-- `RegIdx` either names the register whose byte it was given, or raises. -/
theorem regIdx_cases (b : Byte) (loc : Nat) :
    (∃ r, b = regByte r ∧ regIdx b loc = .ok r) ∨
      (8 ≤ b.toNat ∧ regIdx b loc = .error (.registerIndexError b loc)) := by
  rcases Nat.lt_or_ge b.toNat 8 with h | h
  · have hb : b = regByte ⟨b.toNat, h⟩ := by
      apply BitVec.eq_of_toNat_eq
      simp
    exact .inl ⟨_, hb, by rw [regIdx, dif_pos h]; rfl⟩
  · exact .inr ⟨h, regIdx_of_ge b loc h⟩

@[simp] theorem State.regA_regByte (s : State) (r : Fin 8) : s.regA (regByte r) = .ok r := regIdx_regByte r _

@[simp] theorem State.regB_regByte (s : State) (r : Fin 8) : s.regB (regByte r) = .ok r := regIdx_regByte r _

theorem State.regA_of_ge (s : State) (b : Byte) (h : 8 ≤ b.toNat) :
    s.regA b = .error (.registerIndexError b (s.pc.toNat + 1)) := regIdx_of_ge b _ h

theorem State.regB_of_ge (s : State) (b : Byte) (h : 8 ≤ b.toNat) :
    s.regB b = .error (.registerIndexError b (s.pc.toNat + 2)) := regIdx_of_ge b _ h

theorem State.regA_cases (s : State) (b : Byte) :
    (∃ r, b = regByte r ∧ s.regA b = .ok r) ∨
      (8 ≤ b.toNat ∧ s.regA b = .error (.registerIndexError b (s.pc.toNat + 1))) := regIdx_cases b _

theorem State.regB_cases (s : State) (b : Byte) :
    (∃ r, b = regByte r ∧ s.regB b = .ok r) ∨
      (8 ≤ b.toNat ∧ s.regB b = .error (.registerIndexError b (s.pc.toNat + 2))) := regIdx_cases b _

/-- A byte is well formed as a register operand iff it is the byte of a register. -/
theorem namesReg_iff (b : Byte) : b.namesReg = true ↔ ∃ r, b = regByte r := by
  unfold Byte.namesReg Config.numRegs
  constructor
  · intro h
    have h := of_decide_eq_true h
    exact ⟨⟨b.toNat, h⟩, BitVec.eq_of_toNat_eq (by simp)⟩
  · rintro ⟨r, rfl⟩
    simp

/-! ### The stack -/

/-- With `sp` in 1..256 a push writes the cell `sp - 1` and lowers `sp`. -/
theorem pushByte_ok (s : State) (v : Byte) (h₁ : 1 ≤ s.sp.toNat) (h₂ : s.sp.toNat ≤ 256) :
    pushByte s v = .ok ((s.withMem (s.mem.write (s.sp.toNat - 1) v)).withSp (s.sp - 1)) := by
  have ha : s.pushAddr = ((s.sp.toNat - 1 : Nat) : Int) := by unfold State.pushAddr; omega
  rw [pushByte, ha, memWrite_of_le _ _ _ (by omega)]
  rfl

/-- With `sp` 0 or above 256 a push raises AddressError at `sp - 1`. -/
theorem pushByte_error (s : State) (v : Byte) (h : s.sp.toNat = 0 ∨ 256 < s.sp.toNat) :
    pushByte s v = .error (.addressError s.pushAddr) := by
  have ha : s.pushAddr < 0 ∨ s.pushAddr > 255 := by unfold State.pushAddr; omega
  rw [pushByte, memWrite_of_outside _ _ _ ha]
  rfl

/-- With `sp` at most 255 a pop reads the cell `sp` and raises `sp`. -/
theorem popByte_ok (s : State) (h : s.sp.toNat ≤ 255) :
    popByte s = .ok (s.mem.read s.sp.toNat, s.withSp (s.sp + 1)) := by
  rw [popByte, State.popAddr, memRead_of_le _ _ h]
  rfl

/-- With `sp` above 255 a pop raises AddressError at `sp`. -/
theorem popByte_error (s : State) (h : 255 < s.sp.toNat) : popByte s = .error (.addressError s.popAddr) := by
  have ha : s.popAddr < 0 ∨ s.popAddr > 255 := by unfold State.popAddr; omega
  rw [popByte, memRead_of_outside _ _ ha]
  rfl

theorem pushByte_cases (s : State) (v : Byte) :
    (1 ≤ s.sp.toNat ∧ s.sp.toNat ≤ 256 ∧
        pushByte s v = .ok ((s.withMem (s.mem.write (s.sp.toNat - 1) v)).withSp (s.sp - 1))) ∨
      ((s.sp.toNat = 0 ∨ 256 < s.sp.toNat) ∧ pushByte s v = .error (.addressError s.pushAddr)) := by
  by_cases h : 1 ≤ s.sp.toNat ∧ s.sp.toNat ≤ 256
  · exact .inl ⟨h.1, h.2, pushByte_ok s v h.1 h.2⟩
  · have h' : s.sp.toNat = 0 ∨ 256 < s.sp.toNat := by omega
    exact .inr ⟨h', pushByte_error s v h'⟩

theorem popByte_cases (s : State) :
    (s.sp.toNat ≤ 255 ∧ popByte s = .ok (s.mem.read s.sp.toNat, s.withSp (s.sp + 1))) ∨
      (255 < s.sp.toNat ∧ popByte s = .error (.addressError s.popAddr)) := by
  rcases Nat.lt_or_ge 255 s.sp.toNat with h | h
  · exact .inr ⟨h, popByte_error s h⟩
  · exact .inl ⟨h, popByte_ok s h⟩

theorem toNat_pred (p : Ptr) (h : 1 ≤ p.toNat) : (p - 1).toNat = p.toNat - 1 := by
  have := p.isLt
  bv_omega

theorem toNat_add_of_lt (p : Ptr) (n : Nat) (h : p.toNat + n < 512) :
    (p + BitVec.ofNat 9 n).toNat = p.toNat + n := by
  rw [BitVec.toNat_add, BitVec.toNat_ofNat]
  omega

@[simp] theorem toNat_zext9 (v : Byte) : (zext9 v).toNat = v.toNat := by
  have := v.isLt
  simp only [zext9, BitVec.toNat_setWidth]
  omega

/-! ### The ALU and the flags -/

@[simp] theorem alu_add (a b : Byte) : alu .add a b = .ok (a + b) := rfl
@[simp] theorem alu_mult (a b : Byte) : alu .mult a b = .ok (a * b) := rfl
@[simp] theorem alu_inc (a b : Byte) : alu .inc a b = .ok (a + 1) := rfl
@[simp] theorem alu_dec (a b : Byte) : alu .dec a b = .ok (a - 1) := rfl
@[simp] theorem alu_cmp (a b : Byte) : alu .cmp a b = .ok (compareFlags a b) := rfl

/-- A comparison gives exactly one of the three flags. -/
theorem compareFlags_cases (a b : Byte) :
    compareFlags a b = flagE ∨ compareFlags a b = flagL ∨ compareFlags a b = flagG := by
  unfold compareFlags; split
  · exact .inl rfl
  · split
    · exact .inr (.inl rfl)
    · exact .inr (.inr rfl)

theorem compareFlags_bit0 (a b : Byte) : (compareFlags a b).getLsbD 0 = decide (a = b) := by
  unfold compareFlags
  split
  · next h => simp [h, flagE]
  · next h => split <;> simp [h, flagL, flagG]

/-! ### Raising and settling -/

theorem raise_eq (e : Err) (s : State) : raise e s = .next (s.withErr (some e)) := rfl

@[simp] theorem settle_ok (s t : State) : settle s (.ok t) = .next t := rfl

@[simp] theorem settle_error (s : State) (e : Err) : settle s (.error e) = raise e s := rfl

/-- Settling always answers a next state: the one the checks allowed, or the old one with the error recorded. -/
theorem settle_next_iff (s : State) (r : Except Err State) (t : State) :
    settle s r = .next t ↔ r = .ok t ∨ ∃ e, r = .error e ∧ t = s.withErr (some e) := by
  cases r with
  | ok u => simp
  | error e =>
    simp only [settle_error, raise_eq, Host.Outcome.next.injEq, reduceCtorEq, Except.error.injEq, false_or]
    exact ⟨fun h => ⟨e, rfl, h.symm⟩, by rintro ⟨_, rfl, rfl⟩; rfl⟩

end Sys2Proof.Machine
end

