-- ==== Sys2Proof/Laws/Cycle.lean ====
section
/-! SUPPORT. What one step of the dispatcher can do, said once. -/

namespace Sys2Proof.Machine

theorem State.fetchByte_of_le (s : State) (k : Nat) (h : s.pc.toNat + k ≤ 255) :
    s.fetchByte k = .ok (s.mem.read (s.pc.toNat + k)) := memRead_of_le _ _ h

theorem State.fetchByte_of_gt (s : State) (k : Nat) (h : 255 < s.pc.toNat + k) :
    s.fetchByte k = .error (.addressError (s.pc.toNat + k : Nat)) :=
  memRead_of_outside _ _ (.inr (by simp only [State.operandAddr]; omega))

theorem stepWith_of_active {opc : OpcodeMap} {s : State} (h : s.status = .active) :
    stepWith opc s = activeStep opc s := by unfold stepWith; rw [h]

theorem stepWith_of_not_active {opc : OpcodeMap} {s : State} (h : s.status ≠ .active) :
    stepWith opc s = .next s := by
  unfold stepWith
  cases hs : s.status with
  | active => exact absurd hs h
  | halted => rfl
  | faulted => rfl

/-- The step of an ACTIVE machine executes the instruction fetched, or raises what the fetch raised. -/
theorem activeStep_cases (opc : OpcodeMap) (s : State) :
    (∃ i, fetchInstr opc s = .ok i ∧ activeStep opc s = exec i s) ∨
      (∃ e, fetchInstr opc s = .error e ∧ activeStep opc s = .next (s.withErr (some e))) := by
  unfold activeStep
  cases fetchInstr opc s with
  | ok i => exact .inl ⟨i, rfl, rfl⟩
  | error e => exact .inr ⟨e, rfl, rfl⟩

/-- Everything a step can do. -/
theorem stepWith_cases (opc : OpcodeMap) (s : State) :
    (s.status ≠ .active ∧ stepWith opc s = .next s) ∨
      (s.status = .active ∧ ∃ i, fetchInstr opc s = .ok i ∧ stepWith opc s = exec i s) ∨
      (s.status = .active ∧ ∃ e, fetchInstr opc s = .error e ∧ stepWith opc s = .next (s.withErr (some e))) := by
  by_cases h : s.status = .active
  · rw [stepWith_of_active h]
    rcases activeStep_cases opc s with hc | hc
    · exact .inr (.inl ⟨h, hc⟩)
    · exact .inr (.inr ⟨h, hc⟩)
  · exact .inl ⟨h, stepWith_of_not_active h⟩

end Sys2Proof.Machine
end

