-- ==== Sys2Proof/Laws/Exec.lean ====
section
/-! SUPPORT. For each meaning, everything it can do: its own effect, or the error of the first check that fails. Later proofs
take these cases and do not unfold the meanings. -/

namespace Sys2Proof.Machine

variable (s : State)

theorem execLdi_cases (b imm : Byte) :
    (∃ r, b = regByte r ∧ execLdi b imm s = .next ((s.writeReg r imm).advance 3)) ∨
      (8 ≤ b.toNat ∧ execLdi b imm s = .next (s.withErr (some (.registerIndexError b (s.pc.toNat + 1))))) := by
  rcases s.regA_cases b with ⟨r, rfl, hr⟩ | ⟨hb, hr⟩
  · exact .inl ⟨r, rfl, by unfold execLdi; rw [hr]; rfl⟩
  · exact .inr ⟨hb, by unfold execLdi; rw [hr]; rfl⟩

theorem execPrn_cases (b : Byte) :
    (∃ r, b = regByte r ∧ execPrn b s = .next ((s.emit (s.readReg r)).advance 2)) ∨
      (8 ≤ b.toNat ∧ execPrn b s = .next (s.withErr (some (.registerIndexError b (s.pc.toNat + 1))))) := by
  rcases s.regA_cases b with ⟨r, rfl, hr⟩ | ⟨hb, hr⟩
  · exact .inl ⟨r, rfl, by unfold execPrn; rw [hr]; rfl⟩
  · exact .inr ⟨hb, by unfold execPrn; rw [hr]; rfl⟩

theorem execInc_cases (b : Byte) :
    (∃ r, b = regByte r ∧ execInc b s = .next ((s.writeReg r (s.readReg r + 1)).advance 2)) ∨
      (8 ≤ b.toNat ∧ execInc b s = .next (s.withErr (some (.registerIndexError b (s.pc.toNat + 1))))) := by
  rcases s.regA_cases b with ⟨r, rfl, hr⟩ | ⟨hb, hr⟩
  · exact .inl ⟨r, rfl, by unfold execInc; rw [hr]; rfl⟩
  · exact .inr ⟨hb, by unfold execInc; rw [hr]; rfl⟩

theorem execDec_cases (b : Byte) :
    (∃ r, b = regByte r ∧ execDec b s = .next ((s.writeReg r (s.readReg r - 1)).advance 2)) ∨
      (8 ≤ b.toNat ∧ execDec b s = .next (s.withErr (some (.registerIndexError b (s.pc.toNat + 1))))) := by
  rcases s.regA_cases b with ⟨r, rfl, hr⟩ | ⟨hb, hr⟩
  · exact .inl ⟨r, rfl, by unfold execDec; rw [hr]; rfl⟩
  · exact .inr ⟨hb, by unfold execDec; rw [hr]; rfl⟩

theorem execJmp_cases (b : Byte) :
    (∃ r, b = regByte r ∧ execJmp b s = .next (s.jumpTo r)) ∨
      (8 ≤ b.toNat ∧ execJmp b s = .next (s.withErr (some (.registerIndexError b (s.pc.toNat + 1))))) := by
  rcases s.regA_cases b with ⟨r, rfl, hr⟩ | ⟨hb, hr⟩
  · exact .inl ⟨r, rfl, by unfold execJmp; rw [hr]; rfl⟩
  · exact .inr ⟨hb, by unfold execJmp; rw [hr]; rfl⟩

theorem execJeq_cases (b : Byte) :
    (∃ r, b = regByte r ∧ execJeq b s = .next (if s.equalFlag then s.jumpTo r else s.advance 2)) ∨
      (8 ≤ b.toNat ∧ execJeq b s = .next (s.withErr (some (.registerIndexError b (s.pc.toNat + 1))))) := by
  rcases s.regA_cases b with ⟨r, rfl, hr⟩ | ⟨hb, hr⟩
  · exact .inl ⟨r, rfl, by unfold execJeq; rw [hr]; rfl⟩
  · exact .inr ⟨hb, by unfold execJeq; rw [hr]; rfl⟩

theorem execJne_cases (b : Byte) :
    (∃ r, b = regByte r ∧ execJne b s = .next (if s.equalFlag then s.advance 2 else s.jumpTo r)) ∨
      (8 ≤ b.toNat ∧ execJne b s = .next (s.withErr (some (.registerIndexError b (s.pc.toNat + 1))))) := by
  rcases s.regA_cases b with ⟨r, rfl, hr⟩ | ⟨hb, hr⟩
  · exact .inl ⟨r, rfl, by unfold execJne; rw [hr]; rfl⟩
  · exact .inr ⟨hb, by unfold execJne; rw [hr]; rfl⟩

theorem execMult_cases (a b : Byte) :
    (∃ p q, a = regByte p ∧ b = regByte q ∧
        execMult a b s = .next ((s.writeReg p (s.readReg p * s.readReg q)).advance 3)) ∨
      (8 ≤ a.toNat ∧ execMult a b s = .next (s.withErr (some (.registerIndexError a (s.pc.toNat + 1))))) ∨
      (∃ p, a = regByte p ∧ 8 ≤ b.toNat ∧
        execMult a b s = .next (s.withErr (some (.registerIndexError b (s.pc.toNat + 2))))) := by
  rcases s.regA_cases a with ⟨p, rfl, hp⟩ | ⟨ha, hp⟩
  · rcases s.regB_cases b with ⟨q, rfl, hq⟩ | ⟨hb, hq⟩
    · exact .inl ⟨p, q, rfl, rfl, by unfold execMult; rw [hp, hq]; rfl⟩
    · exact .inr (.inr ⟨p, rfl, hb, by unfold execMult; rw [hp, hq]; rfl⟩)
  · exact .inr (.inl ⟨ha, by unfold execMult; rw [hp]; rfl⟩)

theorem execAdd_cases (a b : Byte) :
    (∃ p q, a = regByte p ∧ b = regByte q ∧
        execAdd a b s = .next ((s.writeReg p (s.readReg p + s.readReg q)).advance 3)) ∨
      (8 ≤ a.toNat ∧ execAdd a b s = .next (s.withErr (some (.registerIndexError a (s.pc.toNat + 1))))) ∨
      (∃ p, a = regByte p ∧ 8 ≤ b.toNat ∧
        execAdd a b s = .next (s.withErr (some (.registerIndexError b (s.pc.toNat + 2))))) := by
  rcases s.regA_cases a with ⟨p, rfl, hp⟩ | ⟨ha, hp⟩
  · rcases s.regB_cases b with ⟨q, rfl, hq⟩ | ⟨hb, hq⟩
    · exact .inl ⟨p, q, rfl, rfl, by unfold execAdd; rw [hp, hq]; rfl⟩
    · exact .inr (.inr ⟨p, rfl, hb, by unfold execAdd; rw [hp, hq]; rfl⟩)
  · exact .inr (.inl ⟨ha, by unfold execAdd; rw [hp]; rfl⟩)

theorem execCmp_cases (a b : Byte) :
    (∃ p q, a = regByte p ∧ b = regByte q ∧
        execCmp a b s = .next ((s.withFl (compareFlags (s.readReg p) (s.readReg q))).advance 3)) ∨
      (8 ≤ a.toNat ∧ execCmp a b s = .next (s.withErr (some (.registerIndexError a (s.pc.toNat + 1))))) ∨
      (∃ p, a = regByte p ∧ 8 ≤ b.toNat ∧
        execCmp a b s = .next (s.withErr (some (.registerIndexError b (s.pc.toNat + 2))))) := by
  rcases s.regA_cases a with ⟨p, rfl, hp⟩ | ⟨ha, hp⟩
  · rcases s.regB_cases b with ⟨q, rfl, hq⟩ | ⟨hb, hq⟩
    · exact .inl ⟨p, q, rfl, rfl, by unfold execCmp; rw [hp, hq]; rfl⟩
    · exact .inr (.inr ⟨p, rfl, hb, by unfold execCmp; rw [hp, hq]; rfl⟩)
  · exact .inr (.inl ⟨ha, by unfold execCmp; rw [hp]; rfl⟩)

theorem execPush_cases (b : Byte) :
    (∃ r, b = regByte r ∧ 1 ≤ s.sp.toNat ∧ s.sp.toNat ≤ 256 ∧
        execPush b s =
          .next (((s.withMem (s.mem.write (s.sp.toNat - 1) (s.readReg r))).withSp (s.sp - 1)).advance 2)) ∨
      (8 ≤ b.toNat ∧ execPush b s = .next (s.withErr (some (.registerIndexError b (s.pc.toNat + 1))))) ∨
      (∃ r, b = regByte r ∧ (s.sp.toNat = 0 ∨ 256 < s.sp.toNat) ∧
        execPush b s = .next (s.withErr (some (.addressError s.pushAddr)))) := by
  rcases s.regA_cases b with ⟨r, rfl, hr⟩ | ⟨hb, hr⟩
  · rcases pushByte_cases s (s.readReg r) with ⟨h₁, h₂, hp⟩ | ⟨h, hp⟩
    · exact .inl ⟨r, rfl, h₁, h₂, by simp only [execPush, hr, bind, Except.bind, hp]; rfl⟩
    · exact .inr (.inr ⟨r, rfl, h, by simp only [execPush, hr, bind, Except.bind, hp]; rfl⟩)
  · exact .inr (.inl ⟨hb, by unfold execPush; rw [hr]; rfl⟩)

theorem execCall_cases (b : Byte) :
    (∃ r, b = regByte r ∧ 1 ≤ s.sp.toNat ∧ s.sp.toNat ≤ 256 ∧
        execCall b s =
          .next (((s.withMem (s.mem.write (s.sp.toNat - 1) (s.callSave))).withSp (s.sp - 1)).jumpTo r)) ∨
      (8 ≤ b.toNat ∧ execCall b s = .next (s.withErr (some (.registerIndexError b (s.pc.toNat + 1))))) ∨
      (∃ r, b = regByte r ∧ (s.sp.toNat = 0 ∨ 256 < s.sp.toNat) ∧
        execCall b s = .next (s.withErr (some (.addressError s.pushAddr)))) := by
  rcases s.regA_cases b with ⟨r, rfl, hr⟩ | ⟨hb, hr⟩
  · rcases pushByte_cases s (s.callSave) with ⟨h₁, h₂, hp⟩ | ⟨h, hp⟩
    · exact .inl ⟨r, rfl, h₁, h₂, by simp only [execCall, hr, bind, Except.bind, hp]; rfl⟩
    · exact .inr (.inr ⟨r, rfl, h, by simp only [execCall, hr, bind, Except.bind, hp]; rfl⟩)
  · exact .inr (.inl ⟨hb, by unfold execCall; rw [hr]; rfl⟩)

theorem execPop_cases (b : Byte) :
    (∃ r, b = regByte r ∧ s.sp.toNat ≤ 255 ∧
        execPop b s = .next (((s.withSp (s.sp + 1)).writeReg r (s.mem.read s.sp.toNat)).advance 2)) ∨
      (8 ≤ b.toNat ∧ execPop b s = .next (s.withErr (some (.registerIndexError b (s.pc.toNat + 1))))) ∨
      (∃ r, b = regByte r ∧ 255 < s.sp.toNat ∧
        execPop b s = .next (s.withErr (some (.addressError s.popAddr)))) := by
  rcases s.regA_cases b with ⟨r, rfl, hr⟩ | ⟨hb, hr⟩
  · rcases popByte_cases s with ⟨h, hp⟩ | ⟨h, hp⟩
    · exact .inl ⟨r, rfl, h, by unfold execPop; rw [hr, hp]; rfl⟩
    · exact .inr (.inr ⟨r, rfl, h, by unfold execPop; rw [hr, hp]; rfl⟩)
  · exact .inr (.inl ⟨hb, by unfold execPop; rw [hr]; rfl⟩)

theorem execRet_cases :
    (s.sp.toNat ≤ 255 ∧
        execRet s = .next ((s.withSp (s.sp + 1)).withPc (zext9 (s.mem.read s.sp.toNat) + 2))) ∨
      (255 < s.sp.toNat ∧ execRet s = .next (s.withErr (some (.addressError s.popAddr)))) := by
  rcases popByte_cases s with ⟨h, hp⟩ | ⟨h, hp⟩
  · exact .inl ⟨h, by unfold execRet; rw [hp]; rfl⟩
  · exact .inr ⟨h, by unfold execRet; rw [hp]; rfl⟩

theorem execHlt_eq : execHlt s = .next ((s.withRunning false).advance 1) := rfl

/-- The state an instruction leaves when none of its checks fails. -/
def Completes (t : State) : Instr → Prop
  | .ldi b imm => ∃ r, b = regByte r ∧ t = (s.writeReg r imm).advance 3
  | .prn b => ∃ r, b = regByte r ∧ t = (s.emit (s.readReg r)).advance 2
  | .mult a b => ∃ p q, a = regByte p ∧ b = regByte q ∧ t = (s.writeReg p (s.readReg p * s.readReg q)).advance 3
  | .add a b => ∃ p q, a = regByte p ∧ b = regByte q ∧ t = (s.writeReg p (s.readReg p + s.readReg q)).advance 3
  | .inc b => ∃ r, b = regByte r ∧ t = (s.writeReg r (s.readReg r + 1)).advance 2
  | .dec b => ∃ r, b = regByte r ∧ t = (s.writeReg r (s.readReg r - 1)).advance 2
  | .push b => ∃ r, b = regByte r ∧ 1 ≤ s.sp.toNat ∧ s.sp.toNat ≤ 256 ∧
      t = ((s.withMem (s.mem.write (s.sp.toNat - 1) (s.readReg r))).withSp (s.sp - 1)).advance 2
  | .pop b => ∃ r, b = regByte r ∧ s.sp.toNat ≤ 255 ∧
      t = ((s.withSp (s.sp + 1)).writeReg r (s.mem.read s.sp.toNat)).advance 2
  | .call b => ∃ r, b = regByte r ∧ 1 ≤ s.sp.toNat ∧ s.sp.toNat ≤ 256 ∧
      t = ((s.withMem (s.mem.write (s.sp.toNat - 1) s.callSave)).withSp (s.sp - 1)).jumpTo r
  | .ret => s.sp.toNat ≤ 255 ∧ t = (s.withSp (s.sp + 1)).withPc (zext9 (s.mem.read s.sp.toNat) + 2)
  | .cmp a b => ∃ p q, a = regByte p ∧ b = regByte q ∧
      t = (s.withFl (compareFlags (s.readReg p) (s.readReg q))).advance 3
  | .jmp b => ∃ r, b = regByte r ∧ t = s.jumpTo r
  | .jeq b => ∃ r, b = regByte r ∧ t = if s.equalFlag then s.jumpTo r else s.advance 2
  | .jne b => ∃ r, b = regByte r ∧ t = if s.equalFlag then s.advance 2 else s.jumpTo r
  | .hlt => t = (s.withRunning false).advance 1

/-- The error an instruction raises: of a register operand byte, or of its stack address. -/
def Raises (e : Err) (i : Instr) : Prop :=
  (∃ b ∈ i.regOperands, 8 ≤ b.toNat ∧ ∃ k, 1 ≤ k ∧ k < i.length ∧ e = .registerIndexError b (s.pc.toNat + k)) ∨
    (i.mnemonic ∈ [Mnemonic.push, .call] ∧ (s.sp.toNat = 0 ∨ 256 < s.sp.toNat) ∧ e = .addressError s.pushAddr) ∨
    (i.mnemonic ∈ [Mnemonic.pop, .ret] ∧ 255 < s.sp.toNat ∧ e = .addressError s.popAddr)

theorem raises_regA {i : Instr} {b : Byte} {l : List Byte} (h : i.regOperands = b :: l) (hb : 8 ≤ b.toNat) :
    Raises s (.registerIndexError b (s.pc.toNat + 1)) i := by
  refine .inl ⟨b, by simp [h], hb, 1, le_rfl, ?_, rfl⟩
  cases i <;> simp [Instr.regOperands, Instr.length, Instr.mnemonic, Mnemonic.length, Mnemonic.operandCount,
    Mnemonic.format, Format.operandCount] at h ⊢

theorem raises_regB {i : Instr} {a b : Byte} (h : i.regOperands = [a, b]) (hb : 8 ≤ b.toNat) :
    Raises s (.registerIndexError b (s.pc.toNat + 2)) i := by
  refine .inl ⟨b, by simp [h], hb, 2, by omega, ?_, rfl⟩
  cases i <;> simp [Instr.regOperands, Instr.length, Instr.mnemonic, Mnemonic.length, Mnemonic.operandCount,
    Mnemonic.format, Format.operandCount] at h ⊢

/-- Everything the execution of an instruction can do: it completes, or it raises an error and changes nothing else. -/
theorem exec_cases (i : Instr) :
    (∃ t, exec i s = .next t ∧ Completes s t i) ∨
      (∃ e, exec i s = .next (s.withErr (some e)) ∧ Raises s e i) := by
  cases i with
  | ldi b imm =>
    rcases execLdi_cases s b imm with ⟨r, hb, h⟩ | ⟨hb, h⟩
    · exact .inl ⟨_, h, r, hb, rfl⟩
    · exact .inr ⟨_, h, raises_regA s rfl hb⟩
  | prn b =>
    rcases execPrn_cases s b with ⟨r, hb, h⟩ | ⟨hb, h⟩
    · exact .inl ⟨_, h, r, hb, rfl⟩
    · exact .inr ⟨_, h, raises_regA s rfl hb⟩
  | mult a b =>
    rcases execMult_cases s a b with ⟨p, q, ha, hb, h⟩ | ⟨ha, h⟩ | ⟨p, -, hb, h⟩
    · exact .inl ⟨_, h, p, q, ha, hb, rfl⟩
    · exact .inr ⟨_, h, raises_regA s rfl ha⟩
    · exact .inr ⟨_, h, raises_regB s rfl hb⟩
  | add a b =>
    rcases execAdd_cases s a b with ⟨p, q, ha, hb, h⟩ | ⟨ha, h⟩ | ⟨p, -, hb, h⟩
    · exact .inl ⟨_, h, p, q, ha, hb, rfl⟩
    · exact .inr ⟨_, h, raises_regA s rfl ha⟩
    · exact .inr ⟨_, h, raises_regB s rfl hb⟩
  | inc b =>
    rcases execInc_cases s b with ⟨r, hb, h⟩ | ⟨hb, h⟩
    · exact .inl ⟨_, h, r, hb, rfl⟩
    · exact .inr ⟨_, h, raises_regA s rfl hb⟩
  | dec b =>
    rcases execDec_cases s b with ⟨r, hb, h⟩ | ⟨hb, h⟩
    · exact .inl ⟨_, h, r, hb, rfl⟩
    · exact .inr ⟨_, h, raises_regA s rfl hb⟩
  | push b =>
    rcases execPush_cases s b with ⟨r, hb, h₁, h₂, h⟩ | ⟨hb, h⟩ | ⟨r, -, hs, h⟩
    · exact .inl ⟨_, h, r, hb, h₁, h₂, rfl⟩
    · exact .inr ⟨_, h, raises_regA s rfl hb⟩
    · exact .inr ⟨_, h, .inr (.inl ⟨by simp [Instr.mnemonic], hs, rfl⟩)⟩
  | pop b =>
    rcases execPop_cases s b with ⟨r, hb, h₁, h⟩ | ⟨hb, h⟩ | ⟨r, -, hs, h⟩
    · exact .inl ⟨_, h, r, hb, h₁, rfl⟩
    · exact .inr ⟨_, h, raises_regA s rfl hb⟩
    · exact .inr ⟨_, h, .inr (.inr ⟨by simp [Instr.mnemonic], hs, rfl⟩)⟩
  | call b =>
    rcases execCall_cases s b with ⟨r, hb, h₁, h₂, h⟩ | ⟨hb, h⟩ | ⟨r, -, hs, h⟩
    · exact .inl ⟨_, h, r, hb, h₁, h₂, rfl⟩
    · exact .inr ⟨_, h, raises_regA s rfl hb⟩
    · exact .inr ⟨_, h, .inr (.inl ⟨by simp [Instr.mnemonic], hs, rfl⟩)⟩
  | ret =>
    rcases execRet_cases s with ⟨h₁, h⟩ | ⟨hs, h⟩
    · exact .inl ⟨_, h, h₁, rfl⟩
    · exact .inr ⟨_, h, .inr (.inr ⟨by simp [Instr.mnemonic], hs, rfl⟩)⟩
  | cmp a b =>
    rcases execCmp_cases s a b with ⟨p, q, ha, hb, h⟩ | ⟨ha, h⟩ | ⟨p, -, hb, h⟩
    · exact .inl ⟨_, h, p, q, ha, hb, rfl⟩
    · exact .inr ⟨_, h, raises_regA s rfl ha⟩
    · exact .inr ⟨_, h, raises_regB s rfl hb⟩
  | jmp b =>
    rcases execJmp_cases s b with ⟨r, hb, h⟩ | ⟨hb, h⟩
    · exact .inl ⟨_, h, r, hb, rfl⟩
    · exact .inr ⟨_, h, raises_regA s rfl hb⟩
  | jeq b =>
    rcases execJeq_cases s b with ⟨r, hb, h⟩ | ⟨hb, h⟩
    · exact .inl ⟨_, h, r, hb, rfl⟩
    · exact .inr ⟨_, h, raises_regA s rfl hb⟩
  | jne b =>
    rcases execJne_cases s b with ⟨r, hb, h⟩ | ⟨hb, h⟩
    · exact .inl ⟨_, h, r, hb, rfl⟩
    · exact .inr ⟨_, h, raises_regA s rfl hb⟩
  | hlt => exact .inl ⟨_, execHlt_eq s, rfl⟩

/-- The same for a next state already in hand. -/
theorem exec_next_cases {s t : State} {i : Instr} (h : exec i s = .next t) :
    Completes s t i ∨ ∃ e, t = s.withErr (some e) ∧ Raises s e i := by
  rcases exec_cases s i with ⟨u, hu, hc⟩ | ⟨e, he, hr⟩
  · rw [hu] at h; injection h with h; exact .inl (h ▸ hc)
  · rw [he] at h; injection h with h; exact .inr ⟨e, h.symm, hr⟩

end Sys2Proof.Machine
end

