-- ==== Sys2Proof/Laws/PerInstr.lean ====
section
/-! SUPPORT. The family `EncodingShape`: an instruction's encoding is its opcode byte followed by its operand bytes, and
it has the length its mnemonic says (30_encoding.md R41, R42). -/

namespace Sys2Proof.Laws.EncodingShape

/-- The encoding of `i` under every opcode table. -/
def Statement (i : Instr) : Prop :=
  ∀ opc : OpcodeMap, encodeWith opc i = opc i.mnemonic :: i.operands ∧ (encodeWith opc i).length = i.length

theorem ldi (reg imm : Byte) : Statement (.ldi reg imm) := fun _ => ⟨rfl, rfl⟩
theorem prn (reg : Byte) : Statement (.prn reg) := fun _ => ⟨rfl, rfl⟩
theorem mult (regA regB : Byte) : Statement (.mult regA regB) := fun _ => ⟨rfl, rfl⟩
theorem add (regA regB : Byte) : Statement (.add regA regB) := fun _ => ⟨rfl, rfl⟩
theorem inc (reg : Byte) : Statement (.inc reg) := fun _ => ⟨rfl, rfl⟩
theorem dec (reg : Byte) : Statement (.dec reg) := fun _ => ⟨rfl, rfl⟩
theorem push (reg : Byte) : Statement (.push reg) := fun _ => ⟨rfl, rfl⟩
theorem pop (reg : Byte) : Statement (.pop reg) := fun _ => ⟨rfl, rfl⟩
theorem call (reg : Byte) : Statement (.call reg) := fun _ => ⟨rfl, rfl⟩
theorem ret : Statement .ret := fun _ => ⟨rfl, rfl⟩
theorem cmp (regA regB : Byte) : Statement (.cmp regA regB) := fun _ => ⟨rfl, rfl⟩
theorem jmp (reg : Byte) : Statement (.jmp reg) := fun _ => ⟨rfl, rfl⟩
theorem jeq (reg : Byte) : Statement (.jeq reg) := fun _ => ⟨rfl, rfl⟩
theorem jne (reg : Byte) : Statement (.jne reg) := fun _ => ⟨rfl, rfl⟩
theorem hlt : Statement .hlt := fun _ => ⟨rfl, rfl⟩

end Sys2Proof.Laws.EncodingShape
end

