-- ==== Sys2Proof/Laws/Run.lean ====
section
/-! SUPPORT. Unrolling the host's run by one step. -/

namespace Sys2Proof.Machine

/-- The host's run over any machine whose step answers a next state. -/
theorem hostRun_succ (M : Host.Core) (n : Nat) (s t : M.State) (h : M.step s = .next t) :
    M.run (n + 1) s = M.run n t := by
  rw [show M.run (n + 1) s = (match M.step s with
    | .next u => M.run n u
    | .fault r => .fault r
    | .refused r => .refused r) from rfl, h]

theorem core_run_zero (s : State) : Sys2Proof.core.run 0 s = .next s := rfl

theorem core_run_succ (n : Nat) (s t : State) (h : step s = .next t) :
    Sys2Proof.core.run (n + 1) s = Sys2Proof.core.run n t := hostRun_succ Sys2Proof.core n s t h

end Sys2Proof.Machine
end

