-- ==== Sys2Proof/Machine/Text.lean ====
section
/-! DEFINITION. The assembly notation (30_encoding.md R50): for people, nothing in the machine reads it. -/

namespace Sys2Proof.Machine

/-- The spelling of a mnemonic (30_encoding.md R45, R50). -/
def mnemonicText : Mnemonic → String
  | .ldi  => "LDI"
  | .prn  => "PRN"
  | .mult => "MULT"
  | .add  => "ADD"
  | .inc  => "INC"
  | .dec  => "DEC"
  | .push => "PUSH"
  | .pop  => "POP"
  | .call => "CALL"
  | .ret  => "RET"
  | .cmp  => "CMP"
  | .jmp  => "JMP"
  | .jeq  => "JEQ"
  | .jne  => "JNE"
  | .hlt  => "HLT"

/-- A mnemonic as read: its own spelling, or `MUL` for `MULT` (30_encoding.md R50). -/
def mnemonicOfText (t : String) : Option Mnemonic :=
  if t = "MUL" then some .mult else allMnemonics.find? (fun m => mnemonicText m == t)

/-- A register operand in text: `R` and its number. -/
def regText (b : Byte) : String := "R" ++ toString b.toNat

/-- An instruction in text: the mnemonic, then its operands separated by a comma, registers as `R0`..`R7`, immediates as
decimal numbers, in the order of the operand bytes (30_encoding.md R50). -/
def instrText (i : Instr) : String :=
  mnemonicText i.mnemonic ++
    match i with
    | .ldi r v => " " ++ regText r ++ ", " ++ toString v.toNat
    | .mult a b | .add a b | .cmp a b => " " ++ regText a ++ ", " ++ regText b
    | .prn r | .inc r | .dec r | .push r | .pop r | .call r | .jmp r | .jeq r | .jne r => " " ++ regText r
    | .ret | .hlt => ""

end Sys2Proof.Machine
end

