-- ==== Sys2Proof/Tests/Slice0.lean ====
section
/-! SUPPORT. The model's own tests. Expected results are those of spec/95_test_vectors.md (named "V-..."), the bit patterns
those of 30_encoding.md R42 and spec/opcode_table.json. At the end stands, for every statement with hypotheses, a theorem that
concrete states and operands meet them. -/

namespace Sys2Proof.Machine.Tests

/-- The reset state with `bytes` in memory from `p` upward and `pc` at `p` (95_test_vectors.md, Conventions). -/
def placed (p : Nat) (bytes : List Byte) : State :=
  { State.reset with pc := BitVec.ofNat 9 p, mem := Memory.writeBytes [] p bytes }

/-- One step from `s` gives `s` with the listed changes. -/
def changes (s : State) (f : State → State) : Prop := step s = .next (f s)

/-- One step from `s` raises `e` and changes nothing else. -/
def raises (s : State) (e : Err) : Prop := step s = .next { s with err := some e }

/-! ## Well-formedness -/

theorem smoke_first_register_byte_8_is_refused : (Instr.mult 8 0).wellFormed = false := by decide
theorem smoke_second_register_byte_8_is_refused : (Instr.mult 7 8).wellFormed = false := by decide
theorem smoke_register_byte_255_is_refused : (Instr.ldi 255 0).wellFormed = false := by decide
theorem smoke_well_formed_is_accepted : (Instr.ldi 7 255).wellFormed = true ∧ (Instr.mult 7 0).wellFormed = true := by
  decide

/-! ## Decoding, every word written from its encoding -/

theorem decode_ldi : decode [0b10000010, 0b00000111, 0b10000001] = .ok (.ldi 7 0x81) := rfl
theorem decode_prn : decode [0b01000111, 0b00000101] = .ok (.prn 5) := rfl
theorem decode_mult : decode [0b10100010, 0b00000001, 0b00000010] = .ok (.mult 1 2) := rfl
theorem decode_add : decode [0b10100000, 0b00000010, 0b00000001] = .ok (.add 2 1) := rfl
theorem decode_inc : decode [0b01100101, 0b00000011] = .ok (.inc 3) := rfl
theorem decode_dec : decode [0b01100110, 0b00000100] = .ok (.dec 4) := rfl
theorem decode_push : decode [0b01000101, 0b00000110] = .ok (.push 6) := rfl
theorem decode_pop : decode [0b01000110, 0b00000111] = .ok (.pop 7) := rfl
theorem decode_call : decode [0b01010000, 0b00000001] = .ok (.call 1) := rfl
theorem decode_ret : decode [0b00010001] = .ok .ret := rfl
theorem decode_cmp : decode [0b10100111, 0b00000110, 0b00000111] = .ok (.cmp 6 7) := rfl
theorem decode_jmp : decode [0b01010100, 0b00000011] = .ok (.jmp 3) := rfl
theorem decode_jeq : decode [0b01010101, 0b00000010] = .ok (.jeq 2) := rfl
theorem decode_jne : decode [0b01010110, 0b00000011] = .ok (.jne 3) := rfl
theorem decode_hlt : decode [0b00000001] = .ok .hlt := rfl

theorem decode_keeps_a_bad_register_byte : decode [0b10000010, 0b11111111, 0b00000001] = .ok (.ldi 0xFF 1) := rfl
theorem decode_zero_is_refused : decode [0x00] = .error (.illegalOpcode 0x00) := rfl
theorem decode_nothing_is_refused : decode [] = .error .noOpcodeByte := rfl
theorem decode_short_ldi_is_refused : decode [0x82] = .error (.noOperandByte 1) ∧
    decode [0x82, 0x01] = .error (.noOperandByte 2) := ⟨rfl, rfl⟩
theorem decode_table_word_of_cmp : decodeTableWord 24 0x0706A7 = some (.cmp 6 7) := by decide
theorem decode_table_word_ignores_bits_above : decodeTableWord 8 0x0706A7 = some (.cmp 0 0) := by decide
theorem fetch_word_runs_first : changes (State.reset.withFetchWord 24 0x080082) fun s =>
    { s with x := s.x.set 0 8, pc := 3 } := rfl

/-! ## The text form (30_encoding.md R50) -/

theorem text_of_ldi : instrText (.ldi 0 8) = "LDI R0, 8" := by decide
theorem text_of_mult : instrText (.mult 0 1) = "MULT R0, R1" := by decide
theorem text_mul_is_mult : mnemonicOfText "MUL" = some .mult ∧ mnemonicOfText "SUB" = none := by decide

/-! ## Reset and load -/

theorem reset_step_finds_no_opcode : raises State.reset (.invalidOpcode 0x00 0) := rfl
theorem load_places_from_zero : State.reset.load [0x01, 0x02] =
    some { State.reset with mem := [(0, 0x01), (1, 0x02)] } := by decide
theorem error_codes : errCode none = 0 ∧ errCode (some (.invalidOpcode 0 0)) = 1 ∧
    errCode (some .invalidALUOperation) = 2 ∧ errCode (some (.addressError 256)) = 3 ∧
    errCode (some (.registerIndexError 8 1)) = 4 := by decide

/-! ## One step, from the vectors of 95_test_vectors.md -/

/-- V-LDI-2 -/
theorem test_ldi_highest :
    changes { placed 0x10 [0x82, 0x07, 0xFF] with x := #v[0, 0, 0, 0, 0, 0, 0, 1] } fun s =>
      { s with x := s.x.set 7 255, pc := 0x13 } := rfl

/-- V-LDI-6 -/
theorem test_ldi_past_the_top :
    raises (placed 0xFE [0x82, 0x01])
      (.addressError 256) := rfl

/-- V-PRN-3 -/
theorem test_prn_of_255 :
    changes { placed 0x04 [0x47, 0x07] with x := #v[0, 0, 0, 0, 0, 0, 0, 255] } fun s =>
      { s with out := s.out ++ [255], pc := 0x06 } := rfl

/-- V-PRN-4 -/
theorem test_prn_register_8 :
    raises { placed 0x04 [0x47, 0x08] with x := #v[1, 0, 0, 0, 0, 0, 0, 0] }
      (.registerIndexError 8 5) := rfl

/-- V-MULT-7 -/
theorem test_mult_operand_order :
    changes { placed 0 [0xA2, 0x01, 0x00] with x := #v[3, 5, 0, 0, 0, 0, 0, 0], fl := 0x02 } fun s =>
      { s with x := s.x.set 1 15, pc := 3 } := rfl

/-- V-MULT-4 -/
theorem test_mult_wraps :
    changes { placed 0 [0xA2, 0x03, 0x04] with x := #v[0, 0, 0, 255, 255, 0, 0, 0] } fun s =>
      { s with x := s.x.set 3 1, pc := 3 } := rfl

/-- V-ADD-3 -/
theorem test_add_wraps_and_keeps_flags :
    changes { placed 0 [0xA0, 0x00, 0x01] with x := #v[255, 1, 0, 0, 0, 0, 0, 0], fl := 0x04 } fun s =>
      { s with x := s.x.set 0 0, pc := 3 } := rfl

/-- V-ADD-4 -/
theorem test_add_same_register :
    changes { placed 0 [0xA0, 0x05, 0x05] with x := #v[0, 0, 0, 0, 0, 200, 0, 0] } fun s =>
      { s with x := s.x.set 5 144, pc := 3 } := rfl

/-- V-INC-2 -/
theorem test_inc_wraps :
    changes { placed 0 [0x65, 0x00] with x := #v[255, 0, 0, 0, 0, 0, 0, 0], fl := 0x01 } fun s =>
      { s with x := s.x.set 0 0, pc := 2 } := rfl

/-- V-INC-3 -/
theorem test_inc_register_10 :
    raises (placed 0 [0x65, 0x0A])
      (.registerIndexError 10 1) := rfl

/-- V-DEC-2 -/
theorem test_dec_wraps :
    changes (placed 0 [0x66, 0x00]) fun s =>
      { s with x := s.x.set 0 255, pc := 2 } := rfl

/-- V-DEC-3 -/
theorem test_dec_to_zero_keeps_flags :
    changes { placed 0 [0x66, 0x00] with x := #v[1, 0, 0, 0, 0, 0, 0, 0], fl := 0x04 } fun s =>
      { s with x := s.x.set 0 0, pc := 2 } := rfl

/-- V-CMP-5 -/
theorem test_cmp_is_unsigned :
    changes { placed 0 [0xA7, 0x00, 0x01] with x := #v[128, 127, 0, 0, 0, 0, 0, 0] } fun s =>
      { s with fl := 0x04, pc := 3 } := rfl

/-- V-CMP-7 -/
theorem test_cmp_clears_the_old_flag :
    changes { placed 0 [0xA7, 0x00, 0x01] with x := #v[0, 255, 0, 0, 0, 0, 0, 0], fl := 0x01 } fun s =>
      { s with fl := 0x02, pc := 3 } := rfl

/-- V-PUSH-7 -/
theorem test_push_over_itself :
    changes { placed 0x10 [0x45, 0x01] with x := #v[0, 153, 0, 0, 0, 0, 0, 0], sp := 0x11 } fun s =>
      { s with mem := s.mem.write 0x10 0x99, sp := 0x10, pc := 0x12 } := rfl

/-- V-PUSH-4 -/
theorem test_push_at_sp_0 :
    raises { placed 0x20 [0x45, 0x02] with x := #v[0, 0, 171, 0, 0, 0, 0, 0], sp := 0 }
      (.addressError (-1)) := rfl

/-- V-POP-3 -/
theorem test_pop_of_the_last_cell :
    changes { placed 0 [0x46, 0x07] with sp := 0xFF, mem := Memory.write (placed 0 [0x46, 0x07]).mem 0xFF 0xEE } fun s =>
      { s with x := s.x.set 7 238, sp := 256, pc := 2 } := rfl

/-- V-POP-5 -/
theorem test_pop_register_before_stack :
    raises { placed 0 [0x46, 0x08] with sp := 256 }
      (.registerIndexError 8 1) := rfl

/-- V-CALL-1 -/
theorem test_call_saves_its_own_address :
    changes { placed 6 [0x50, 0x01] with x := #v[0, 16, 0, 0, 0, 0, 0, 0] } fun s =>
      { s with mem := s.mem.write 0xF3 0x06, sp := 0xF3, pc := 0x10 } := rfl

/-- V-CALL-6 -/
theorem test_call_over_its_operand :
    changes { placed 0x10 [0x50, 0x01] with x := #v[119, 48, 0, 0, 0, 0, 0, 0], sp := 0x12 } fun s =>
      { s with mem := s.mem.write 0x11 0x10, sp := 0x11, pc := 0x30 } := rfl

/-- V-RET-1 -/
theorem test_ret_two_past_saved :
    changes { placed 0x1A [0x11] with sp := 0xF3, mem := Memory.write (placed 0x1A [0x11]).mem 0xF3 0x06 } fun s =>
      { s with sp := 0xF4, pc := 0x08 } := rfl

/-- V-RET-4 -/
theorem test_ret_past_the_top :
    changes { placed 0x1A [0x11] with sp := 0xF3, mem := Memory.write (placed 0x1A [0x11]).mem 0xF3 0xFF } fun s =>
      { s with sp := 0xF4, pc := 257 } := rfl

/-- V-JMP-3 -/
theorem test_jmp_to_255 :
    changes { placed 0 [0x54, 0x01] with x := #v[0, 255, 0, 0, 0, 0, 0, 0] } fun s =>
      { s with pc := 0xFF } := rfl

/-- V-JMP-4 -/
theorem test_jmp_register_8 :
    raises (placed 0 [0x54, 0x08])
      (.registerIndexError 8 1) := rfl

/-- V-JEQ-1 -/
theorem test_jeq_taken :
    changes { placed 0x0C [0x55, 0x02] with x := #v[0, 0, 19, 0, 0, 0, 0, 0], fl := 0x01 } fun s =>
      { s with pc := 0x13 } := rfl

/-- V-JEQ-3 -/
theorem test_jeq_not_taken :
    changes { placed 0x0C [0x55, 0x02] with x := #v[0, 0, 19, 0, 0, 0, 0, 0], fl := 0x04 } fun s =>
      { s with pc := 0x0E } := rfl

/-- V-JNE-3 -/
theorem test_jne_not_taken :
    changes { placed 0x14 [0x56, 0x03] with x := #v[0, 0, 0, 12, 0, 0, 0, 0], fl := 0x01 } fun s =>
      { s with pc := 0x16 } := rfl

/-- V-JNE-5 -/
theorem test_jne_not_taken_still_checks :
    raises { placed 0x14 [0x56, 0x0F] with fl := 0x01 }
      (.registerIndexError 15 21) := rfl

/-- V-HLT-2 -/
theorem test_hlt_at_255 :
    changes (placed 0xFF [0x01]) fun s =>
      { s with running := false, pc := 256 } := rfl

/-- V-FETCH-4 -/
theorem test_fetch_neighbour_of_hlt :
    raises (placed 0x33 [0x02])
      (.invalidOpcode 0x02 51) := rfl

/-- V-FETCH-6 -/
theorem test_fetch_at_257 :
    raises { State.reset with pc := 257 }
      (.addressError 257) := rfl

/-- V-PRI-2 -/
theorem test_opcode_before_operand_fetch :
    raises (placed 0xFE [0xA3, 0x09])
      (.invalidOpcode 0xA3 254) := rfl

/-- 10_state.md R15, R22: HALTED and FAULTED machines do not step. -/
theorem test_no_step_after_the_end :
    changes { placed 0 [0x82, 0x00, 0x08] with running := false } id ∧
    changes { placed 0 [0x82, 0x00, 0x08] with err := some (.addressError 256) } id := ⟨rfl, rfl⟩

/-! ## Witnesses: the hypotheses of the statements are met -/

/-- The hypotheses of `FetchedAs` under the default table. -/
def meetsFetch (s : State) (bytes : OpcodeMap → List Byte) : Prop :=
  defaultOpcode.Injective ∧ s.status = .active ∧ holdsBytes s.mem s.pc.toNat (bytes defaultOpcode)

/-- The hypotheses of `OperandFetchFaults` under the default table. -/
def meetsTop (s : State) (m : Mnemonic) : Prop :=
  defaultOpcode.Injective ∧ s.status = .active ∧ s.pc.toNat ≤ 255 ∧ s.mem.read s.pc.toNat = defaultOpcode m ∧
    255 < s.pc.toNat + m.operandCount

/-- The two ends of the bad register bytes. -/
theorem witness_bad_register_bytes : 8 ≤ (8 : Byte).toNat ∧ 8 ≤ (255 : Byte).toNat := by decide

theorem witness_DecodeOfEncode : defaultOpcode.Injective := defaultOpcode_injective

theorem witness_EncodeOfDecode : decodeWith defaultOpcode [0x82, 0xFF, 0xFF] = .ok (.ldi 0xFF 0xFF) ∧
    decodeWith defaultOpcode [0x01, 0x00] = .ok .hlt := ⟨rfl, rfl⟩

theorem witness_DecodeRejectsByName : defaultOpcode.Injective ∧ (∀ m, defaultOpcode m ≠ 0x00) ∧
    ([] : List Byte).length < Mnemonic.operandCount .prn ∧ ([] : List Byte).length < Mnemonic.operandCount .ldi ∧
    ([0xFF] : List Byte).length < Mnemonic.operandCount .ldi :=
  ⟨defaultOpcode_injective, by intro m; cases m <;> decide, by decide, by decide, by decide⟩

theorem witness_StepRunsDecodedInstruction :
    (placed 253 [0x82, 0x07, 0xFF]).status = .active ∧ (placed 253 [0x82, 0x07, 0xFF]).pc.toNat + 3 ≤ 256 ∧
    decode (bytesAt (placed 253 [0x82, 0x07, 0xFF]).mem (placed 253 [0x82, 0x07, 0xFF]).pc.toNat 3) = .ok (.ldi 7 0xFF) :=
  ⟨by decide, by decide, rfl⟩

theorem witness_PlacedTableWordIsRun :
    (placed 253 []).status = .active ∧ (placed 253 []).pc.toNat + 3 ≤ 256 ∧ (placed 253 []).mem.wf ∧
    decodeTableWord 24 0xFF0782 = some (.ldi 7 0xFF) := by decide

theorem witness_FetchReadsTheByteAtPcOrRaises :
    (placed 255 [0x01]).pc.toNat ≤ 255 ∧ (placed 256 []).status = .active ∧ 255 < (placed 256 []).pc.toNat := by decide

theorem witness_IllegalOpcodeRaisesInvalidOpcode :
    (placed 255 []).status = .active ∧ (placed 255 []).pc.toNat ≤ 255 ∧
    (∀ m, defaultOpcode m ≠ (placed 255 []).mem.read (placed 255 []).pc.toNat) :=
  ⟨by decide, by decide, by intro m; cases m <;> decide⟩

theorem witness_OperandBytesAreFetchedAfterTheOpcode :
    meetsTop (placed 254 [0x82]) .ldi ∧ meetsTop (placed 255 [0x82]) .ldi ∧ meetsTop (placed 255 [0x47]) .prn ∧
    ((placed 253 [0x82]).status = .active ∧ (placed 253 [0x82]).mem.read (placed 253 [0x82]).pc.toNat = defaultOpcode .ldi ∧
      (placed 253 [0x82]).pc.toNat + Mnemonic.operandCount .ldi ≤ 255) ∧
    ((placed 255 [0x01]).status = .active ∧ (placed 255 [0x01]).mem.read (placed 255 [0x01]).pc.toNat = defaultOpcode .hlt ∧
      (placed 255 [0x01]).pc.toNat + Mnemonic.operandCount .hlt ≤ 255) :=
  ⟨⟨defaultOpcode_injective, by decide⟩, ⟨defaultOpcode_injective, by decide⟩, ⟨defaultOpcode_injective, by decide⟩,
    by decide, by decide⟩

/-- One state for each of the seven conditions of 60_exceptions.md R90, and one that meets none. -/
theorem witness_StepRaisesExactlyTheFirstError :
    (placed 256 []).status = .active ∧ firstError defaultOpcode (placed 256 []) = some (.addressError 256) ∧
    firstError defaultOpcode (placed 255 []) = some (.invalidOpcode 0x00 255) ∧
    firstError defaultOpcode (placed 255 [0x82]) = some (.addressError 256) ∧
    firstError defaultOpcode (placed 254 [0x82, 0x09]) = some (.addressError 256) ∧
    firstError defaultOpcode (placed 253 [0xA2, 0x09, 0x08]) = some (.registerIndexError 9 254) ∧
    firstError defaultOpcode (placed 253 [0xA2, 0x07, 0x08]) = some (.registerIndexError 8 255) ∧
    firstError defaultOpcode { placed 254 [0x45, 0x07] with sp := 0 } = some (.addressError (-1)) ∧
    firstError defaultOpcode (placed 253 [0x82, 0x07, 0xFF]) = none := by decide

theorem witness_BadRegisterByteRaisesRegisterIndexError :
    (Instr.prn 8).regOperands = [8] ∧ (Instr.ldi 255 7).regOperands = [255] ∧ (Instr.mult 8 255).regOperands = [8, 255] ∧
    (Instr.cmp 7 8).regOperands = [7, 8] ∧ (7 : Byte).toNat < 8 ∧ 8 ≤ (8 : Byte).toNat ∧ 8 ≤ (255 : Byte).toNat := by decide

theorem witness_ErrorsArePrecise :
    exec (.prn 8) State.reset = .next { State.reset with err := some (.registerIndexError 8 1) } ∧
    stepWith defaultOpcode (placed 256 []) = .next { placed 256 [] with err := some (.addressError 256) } ∧
    ({ placed 256 [] with err := some (.addressError 256) } : State).err ≠ (placed 256 []).err := ⟨rfl, rfl, by decide⟩

theorem witness_InactiveMachineNeverChanges :
    ({ State.reset with running := false } : State).status ≠ .active ∧
    ({ State.reset with err := some (.addressError 256) } : State).status ≠ .active := by decide

/-- The second clause is about an error that no step raises, so only a state that already holds it meets it. -/
theorem witness_InvalidALUOperationIsNeverRaised :
    Mnemonic.push ∉ [Mnemonic.add, .mult, .inc, .dec, .cmp] ∧
    stepWith defaultOpcode { State.reset with err := some .invalidALUOperation } =
      .next { State.reset with err := some .invalidALUOperation } := ⟨by decide, rfl⟩

/-- A state that meets the invariant, from its parts. -/
theorem inv_placed (s : State) (h : s.pc.toNat ≤ 257 ∧ s.sp.toNat ≤ 256 ∧ legalFlags s.fl ∧ s.mem.wf) : s.Inv :=
  ⟨h.1, h.2.1, h.2.2.1, h.2.2.2⟩

/-- Each of the three addresses is recorded from a state that meets the invariant. -/
theorem witness_AddressErrorRecordsOnlyThreeAddresses :
    ({ placed 254 [0x45, 0x07] with sp := 0 } : State).Inv ∧
    stepWith defaultOpcode { placed 254 [0x45, 0x07] with sp := 0 } =
      .next { placed 254 [0x45, 0x07] with sp := 0, err := some (.addressError (-1)) } ∧
    ({ placed 255 [0x11] with sp := 256 } : State).Inv ∧
    stepWith defaultOpcode { placed 255 [0x11] with sp := 256 } =
      .next { placed 255 [0x11] with sp := 256, err := some (.addressError 256) } ∧
    (placed 257 []).Inv ∧
    stepWith defaultOpcode (placed 257 []) = .next { placed 257 [] with err := some (.addressError 257) } :=
  ⟨inv_placed _ (by decide), rfl, inv_placed _ (by decide), rfl, inv_placed _ (by decide), rfl⟩

/-- A RET of byte 255 at the ends of every range. -/
theorem witness_StepKeepsTheInvariant :
    ({ placed 255 [0x11] with sp := 0xF3, fl := 0x04, mem := [(0xF3, 0xFF), (0xFF, 0x11)] } : State).Inv ∧
    stepWith defaultOpcode { placed 255 [0x11] with sp := 0xF3, fl := 0x04, mem := [(0xF3, 0xFF), (0xFF, 0x11)] } =
      .next { placed 257 [0x11] with sp := 0xF4, fl := 0x04, mem := [(0xF3, 0xFF), (0xFF, 0x11)] } :=
  ⟨inv_placed _ (by decide), rfl⟩

/-- The program of one HLT runs to its end in one step, and stays there. -/
theorem witness_EveryRunOfALoadedProgramIsLegal :
    State.reset.load [0x01] = some (placed 0 [0x01]) ∧
    Sys2Proof.core.run 2 (placed 0 [0x01]) = .next { placed 0 [0x01] with pc := 1, running := false } := ⟨by decide, rfl⟩

theorem witness_LoadPlacesTheImage :
    (List.replicate 256 (0x01 : Byte)).length ≤ 256 ∧ 256 < (List.replicate 257 (0x01 : Byte)).length := by
  simp only [List.length_replicate]; decide

theorem witness_ResetValues : State.reset.load [0xFF] = some { State.reset with mem := [(0, 0xFF)] } := by decide

theorem witness_AluArithmeticWrapsModulo256 :
    (Instr.mult 0 1).mnemonic ∈ [Mnemonic.add, .mult, .inc, .dec] ∧
    exec (.mult 0 1) State.reset = .next { State.reset with pc := 3 } := ⟨by decide, rfl⟩

theorem witness_MemReadChecksItsAddress :
    (-1 : Int) < 0 ∧ (255 : Int) < 256 ∧ (0 : Int) ≤ 0 ∧ (0 : Int) ≤ 255 := by decide

theorem witness_MemWriteChangesOneCell :
    Memory.wf [(0, 0x01), (255, 0xFF)] ∧ (-1 : Int) < 0 ∧ (255 : Int) < 256 ∧ (0 : Int) ≤ 255 := by decide

theorem witness_LdiLoadsTheImmediate :
    meetsFetch (placed 253 [0x82, 0x08, 0xFF]) (fun opc => [opc .ldi, 0x08, 0xFF]) ∧
    meetsTop (placed 254 [0x82]) .ldi ∧ meetsTop (placed 255 [0x82]) .ldi :=
  ⟨⟨defaultOpcode_injective, by decide⟩, ⟨defaultOpcode_injective, by decide⟩, ⟨defaultOpcode_injective, by decide⟩⟩

theorem witness_MultMultipliesModulo256 :
    meetsFetch (placed 253 [0xA2, 0x08, 0xFF]) (fun opc => [opc .mult, 0x08, 0xFF]) ∧
    meetsTop (placed 254 [0xA2]) .mult ∧ meetsTop (placed 255 [0xA2]) .mult :=
  ⟨⟨defaultOpcode_injective, by decide⟩, ⟨defaultOpcode_injective, by decide⟩, ⟨defaultOpcode_injective, by decide⟩⟩

theorem witness_AddAddsModulo256 :
    meetsFetch (placed 253 [0xA0, 0x08, 0xFF]) (fun opc => [opc .add, 0x08, 0xFF]) ∧
    meetsTop (placed 254 [0xA0]) .add ∧ meetsTop (placed 255 [0xA0]) .add :=
  ⟨⟨defaultOpcode_injective, by decide⟩, ⟨defaultOpcode_injective, by decide⟩, ⟨defaultOpcode_injective, by decide⟩⟩

theorem witness_CmpSetsExactlyOneFlag :
    meetsFetch (placed 253 [0xA7, 0x08, 0xFF]) (fun opc => [opc .cmp, 0x08, 0xFF]) ∧
    meetsTop (placed 254 [0xA7]) .cmp ∧ meetsTop (placed 255 [0xA7]) .cmp :=
  ⟨⟨defaultOpcode_injective, by decide⟩, ⟨defaultOpcode_injective, by decide⟩, ⟨defaultOpcode_injective, by decide⟩⟩

theorem witness_IncIncrementsModulo256 :
    meetsFetch (placed 254 [0x65, 0xFF]) (fun opc => [opc .inc, 0xFF]) ∧ meetsTop (placed 255 [0x65]) .inc :=
  ⟨⟨defaultOpcode_injective, by decide⟩, ⟨defaultOpcode_injective, by decide⟩⟩

theorem witness_DecDecrementsModulo256 :
    meetsFetch (placed 254 [0x66, 0xFF]) (fun opc => [opc .dec, 0xFF]) ∧ meetsTop (placed 255 [0x66]) .dec :=
  ⟨⟨defaultOpcode_injective, by decide⟩, ⟨defaultOpcode_injective, by decide⟩⟩

theorem witness_JmpGoesToTheRegister :
    meetsFetch (placed 254 [0x54, 0xFF]) (fun opc => [opc .jmp, 0xFF]) ∧ meetsTop (placed 255 [0x54]) .jmp :=
  ⟨⟨defaultOpcode_injective, by decide⟩, ⟨defaultOpcode_injective, by decide⟩⟩

theorem witness_JeqIsTakenWhenEqualIsSet :
    meetsFetch (placed 254 [0x55, 0xFF]) (fun opc => [opc .jeq, 0xFF]) ∧ meetsTop (placed 255 [0x55]) .jeq :=
  ⟨⟨defaultOpcode_injective, by decide⟩, ⟨defaultOpcode_injective, by decide⟩⟩

theorem witness_JneIsTakenWhenEqualIsClear :
    meetsFetch (placed 254 [0x56, 0xFF]) (fun opc => [opc .jne, 0xFF]) ∧ meetsTop (placed 255 [0x56]) .jne :=
  ⟨⟨defaultOpcode_injective, by decide⟩, ⟨defaultOpcode_injective, by decide⟩⟩

theorem witness_PrnEmitsTheRegister :
    meetsFetch (placed 254 [0x47, 0xFF]) (fun opc => [opc .prn, 0xFF]) ∧ meetsTop (placed 255 [0x47]) .prn ∧
    meetsFetch (placed 251 [0x82, 0x07, 0xFF, 0x47, 0x07]) (fun opc => [opc .ldi, regByte 7, 0xFF, opc .prn, regByte 7]) :=
  ⟨⟨defaultOpcode_injective, by decide⟩, ⟨defaultOpcode_injective, by decide⟩,
    ⟨defaultOpcode_injective, by decide⟩⟩

theorem witness_PushStoresBelowTheStackTop :
    meetsFetch (placed 254 [0x45, 0xFF]) (fun opc => [opc .push, 0xFF]) ∧ meetsTop (placed 255 [0x45]) .push ∧
    ((placed 255 []).pc.toNat ≤ 255 ∧ 1 ≤ ({ placed 255 [] with sp := 1 } : State).sp.toNat ∧
      1 ≤ ({ placed 255 [] with sp := 256 } : State).sp.toNat ∧ ({ placed 255 [] with sp := 256 } : State).sp.toNat ≤ 256) ∧
    ({ placed 0 [] with sp := 0 } : State).sp.toNat = 0 ∧ 256 < ({ placed 0 [] with sp := 257 } : State).sp.toNat :=
  ⟨⟨defaultOpcode_injective, by decide⟩, ⟨defaultOpcode_injective, by decide⟩, by decide, by decide, by decide⟩

theorem witness_CallSavesItsOwnAddress :
    meetsFetch (placed 254 [0x50, 0xFF]) (fun opc => [opc .call, 0xFF]) ∧ meetsTop (placed 255 [0x50]) .call ∧
    ((placed 255 []).pc.toNat ≤ 255 ∧ 1 ≤ ({ placed 255 [] with sp := 1 } : State).sp.toNat ∧
      1 ≤ ({ placed 255 [] with sp := 256 } : State).sp.toNat ∧ ({ placed 255 [] with sp := 256 } : State).sp.toNat ≤ 256) ∧
    ({ placed 0 [] with sp := 0 } : State).sp.toNat = 0 ∧ 256 < ({ placed 0 [] with sp := 257 } : State).sp.toNat :=
  ⟨⟨defaultOpcode_injective, by decide⟩, ⟨defaultOpcode_injective, by decide⟩, by decide, by decide, by decide⟩

theorem witness_PopLoadsTheStackTop :
    meetsFetch (placed 254 [0x46, 0xFF]) (fun opc => [opc .pop, 0xFF]) ∧ meetsTop (placed 255 [0x46]) .pop ∧
    ({ placed 0 [] with sp := 255 } : State).sp.toNat ≤ 255 ∧ 255 < ({ placed 0 [] with sp := 256 } : State).sp.toNat :=
  ⟨⟨defaultOpcode_injective, by decide⟩, ⟨defaultOpcode_injective, by decide⟩, by decide, by decide⟩

theorem witness_RetGoesTwoPastTheSavedAddress :
    meetsFetch (placed 255 [0x11]) (fun opc => [opc .ret]) ∧
    ({ placed 0 [] with sp := 255 } : State).sp.toNat ≤ 255 ∧ 255 < ({ placed 0 [] with sp := 256 } : State).sp.toNat :=
  ⟨⟨defaultOpcode_injective, by decide⟩, by decide, by decide⟩

theorem witness_HltHaltsForGood :
    meetsFetch (placed 255 [0x01]) (fun opc => [opc .hlt]) ∧ (placed 255 [0x01]).err = none ∧
    exec .hlt (placed 255 [0x01]) = .next { placed 255 [0x01] with running := false, pc := 256 } :=
  ⟨⟨defaultOpcode_injective, by decide⟩, by decide, rfl⟩

/-- Equal, less and greater registers, and the flags before the first CMP. -/
theorem witness_JumpsFollowTheComparison :
    State.reset.x[(0 : Fin 8)] = State.reset.x[(1 : Fin 8)] ∧
    (({ State.reset with x := #v[0, 255, 0, 0, 0, 0, 0, 0] } : State).x[(0 : Fin 8)]).toNat <
      (({ State.reset with x := #v[0, 255, 0, 0, 0, 0, 0, 0] } : State).x[(1 : Fin 8)]).toNat ∧
    State.reset.fl = 0x00 := by decide

theorem witness_PushThenPopRestores :
    ({ placed 0 [] with sp := 1 } : State).mem.wf ∧ 1 ≤ ({ placed 0 [] with sp := 1 } : State).sp.toNat ∧
    1 ≤ ({ placed 0 [] with sp := 256 } : State).sp.toNat ∧ ({ placed 0 [] with sp := 256 } : State).sp.toNat ≤ 256 := by
  decide

theorem witness_PushManyFillsDownward :
    (placed 0 []).mem.wf ∧ ([7, 0, 7] : List (Fin 8)).length ≤ ({ placed 0 [] with sp := 3 } : State).sp.toNat ∧
    ([7, 0, 7] : List (Fin 8)).length ≤ ({ placed 0 [] with sp := 256 } : State).sp.toNat ∧
    ({ placed 0 [] with sp := 256 } : State).sp.toNat ≤ 256 := by decide

/-- A CALL at 254, the last place one fits, with the stack at its lowest; the RET comes at once. -/
theorem witness_CallThenRetReturns :
    ({ placed 254 [] with sp := 1 } : State).mem.wf ∧ ({ placed 254 [] with sp := 1 } : State).pc.toNat ≤ 254 ∧
    1 ≤ ({ placed 254 [] with sp := 1 } : State).sp.toNat ∧ ({ placed 254 [] with sp := 1 } : State).sp.toNat ≤ 256 ∧
    exec (.call (regByte 7)) { placed 254 [] with sp := 1 } =
      .next { placed 0 [] with sp := 0, mem := [(0, 0xFE)] } := ⟨by decide, by decide, by decide, by decide, rfl⟩

/-- The pushed byte is HLT's opcode in the first state and the opcode of no instruction in the second. -/
theorem witness_PushedByteIsFetchedNext :
    meetsFetch { placed 253 [0x45, 0x07] with sp := 256 } (fun opc => [opc .push, regByte 7]) ∧
    ({ placed 253 [0x45, 0x07] with sp := 256 } : State).mem.wf ∧
    ({ placed 253 [0x45, 0x07] with sp := 256 } : State).sp.toNat = (placed 253 [0x45, 0x07]).pc.toNat + 3 ∧
    ({ placed 253 [] with x := #v[0, 0, 0, 0, 0, 0, 0, 0x01] } : State).x[(7 : Fin 8)] = defaultOpcode .hlt ∧
    (∀ m, defaultOpcode m ≠ (placed 253 [0x45, 0x07]).x[(7 : Fin 8)]) :=
  ⟨⟨defaultOpcode_injective, by decide⟩, by decide, by decide, by decide, by intro m; cases m <;> decide⟩

theorem witness_RunReturnsOnlyAtAnEnd :
    run 1 (placed 255 [0x01]) = some { placed 255 [0x01] with running := false, pc := 256 } ∧ (1 : Nat) ≤ 2 :=
  ⟨by decide, by decide⟩

theorem witness_OnlyDestinationRegistersChange :
    exec (.ldi (regByte 7) 255) State.reset = .next { State.reset with x := State.reset.x.set 7 255, pc := 3 } ∧
    (State.reset.x.set 7 255)[(7 : Fin 8)] ≠ State.reset.x[(7 : Fin 8)] := ⟨rfl, by decide⟩

theorem witness_OnlyCmpChangesFlags :
    exec (.cmp 7 7) State.reset = .next { State.reset with fl := 0x01, pc := 3 } ∧
    (Instr.cmp 7 7).mnemonic = .cmp ∧ (Instr.cmp 7 7).wellFormed = true ∧
    exec .hlt State.reset = .next { State.reset with running := false, pc := 1 } ∧ Instr.hlt.mnemonic ≠ .cmp :=
  ⟨rfl, by decide, by decide, rfl, by decide⟩

/-- A CMP for the first clause; a JEQ, with another `fl` that has the same bit 0, for the second. -/
theorem witness_FlagsReachOnlyTheConditionalJumps :
    ((Instr.cmp 0 1).mnemonic ≠ .jeq ∧ (Instr.cmp 0 1).mnemonic ≠ .jne ∧
      exec (.cmp 0 1) State.reset = .next { State.reset with fl := 0x01, pc := 3 }) ∧
    (Instr.jeq 0).mnemonic ≠ .cmp ∧ (0xFE : Byte).getLsbD 0 = State.reset.fl.getLsbD 0 ∧
    exec (.jeq 0) State.reset = .next { State.reset with pc := 2 } :=
  ⟨⟨by decide, by decide, rfl⟩, by decide, by decide, rfl⟩

theorem witness_OnlyPrnChangesOutput :
    exec (.prn 7) State.reset = .next { State.reset with out := [0], pc := 2 } := rfl

/-- A PUSH whose byte goes to cell 255 and one whose address is -1. -/
theorem witness_OnlyPushAndCallStore :
    ({ placed 0 [] with sp := 256 } : State).mem.wf ∧ ((255 : Nat) : Int) = ({ placed 0 [] with sp := 256 } : State).pushAddr ∧
    exec (.push 0) { placed 0 [] with sp := 256 } = .next { placed 0 [] with sp := 255, pc := 2 } ∧
    ({ placed 0 [] with sp := 0 } : State).pushAddr < 0 ∧
    exec (.push 0) { placed 0 [] with sp := 0 } = .next { placed 0 [] with sp := 0, err := some (.addressError (-1)) } ∧
    255 < ({ placed 0 [] with sp := 257 } : State).pushAddr ∧
    exec .hlt (placed 0 []) = .next { placed 0 [] with running := false, pc := 1 } :=
  ⟨by decide, by decide, rfl, by decide, rfl, by decide, rfl⟩

theorem witness_OnlyStackInstructionsMoveSp :
    exec (.pop 0) { placed 0 [] with sp := 255 } = .next { placed 0 [] with sp := 256, pc := 2 } ∧
    exec (.push 0) { placed 0 [] with sp := 1 } = .next { placed 0 [] with sp := 0, pc := 2 } := ⟨rfl, rfl⟩

theorem witness_OnlyHltClearsRunning :
    exec .hlt State.reset = .next { State.reset with running := false, pc := 1 } := rfl

/-- An error, a completed instruction in the last cells of memory, and a RET to 257. -/
theorem witness_PcAfterEachInstruction :
    (placed 254 []).pc.toNat + (Instr.prn 8).length ≤ 256 ∧
    exec (.prn 8) (placed 254 []) = .next { placed 254 [] with err := some (.registerIndexError 8 255) } ∧
    (placed 253 []).pc.toNat + (Instr.ldi 0 0).length ≤ 256 ∧
    exec (.ldi 0 0) (placed 253 []) = .next (placed 256 []) ∧
    (placed 255 []).pc.toNat + Instr.ret.length ≤ 256 ∧
    exec .ret { placed 255 [] with sp := 255, mem := [(255, 0xFF)] } =
      .next { placed 257 [] with sp := 256, mem := [(255, 0xFF)] } :=
  ⟨by decide, rfl, by decide, rfl, by decide, rfl⟩

end Sys2Proof.Machine.Tests
end

section
/-! Proofs of the statements about memory access (20_memory.md). -/

namespace Sys2Proof.Machine

/-- Settles O24: outside 0..255 by the law of a write that raises; inside, the written memory is `m.write a v`, whose
reads `Memory.read_write` gives for a canonical `m`. -/
theorem memWriteChangesOneCell : Obligations.MemWriteChangesOneCell := by
  intro m a v hwf
  refine ⟨memWrite_of_outside m a v, fun hlo hhi => ?_⟩
  lift a to Nat using hlo
  refine ⟨m.write a v, memWrite_of_le m a v (by omega), fun b => ?_⟩
  simp only [Memory.read_write m a v hwf b, Nat.cast_inj, @eq_comm _ b a]

/-- Settles O23: an address in 0..255 is a natural number, and each side of the range has its law. -/
theorem memReadChecksItsAddress : Obligations.MemReadChecksItsAddress := by
  intro m a
  refine ⟨memRead_of_outside m a, fun hlo hhi => ?_⟩
  lift a to Nat using hlo
  exact memRead_of_le m a (by omega)

end Sys2Proof.Machine
end

section
/-! Proofs of the statements about encodings as the step meets them (30_encoding.md). -/

namespace Sys2Proof

/-- The values of the bytes in use as opcodes, in the order of the opcode map. -/
def opcodeValues (opc : OpcodeMap) : List Nat := allMnemonics.map fun m => (opc m).toNat

theorem opcodeValues_nodup {opc : OpcodeMap} (hopc : opc.Injective) : (opcodeValues opc).Nodup :=
  List.Nodup.map (fun m n h => hopc m n (BitVec.eq_of_toNat_eq h)) (by decide)

theorem mem_opcodeValues_iff {opc : OpcodeMap} {n : Nat} :
    n ∈ opcodeValues opc ↔ ∃ m, (opc m).toNat = n := by
  simp [opcodeValues, mem_allMnemonics]

/-- Below 256, the values whose byte some mnemonic has are those of `opcodeValues`. -/
theorem opcodeLookup_ofNat_isSome_iff {opc : OpcodeMap} {n : Nat} (hn : n < 256) :
    (opcodeLookup opc (BitVec.ofNat 8 n)).isSome ↔ n ∈ opcodeValues opc := by
  rw [mem_opcodeValues_iff, ← not_iff_not, Bool.not_eq_true, Option.isSome_eq_false_iff, Option.isNone_iff_eq_none,
    opcodeLookup_eq_none_iff, not_exists]
  refine forall_congr' fun m => not_congr ?_
  rw [← BitVec.toNat_inj, BitVec.toNat_ofNat, Nat.mod_eq_of_lt hn]

/-- The legal byte values are the opcode values, in another order. -/
theorem filter_legal_perm_opcodeValues {opc : OpcodeMap} (hopc : opc.Injective) :
    ((List.range 256).filter fun n => (opcodeLookup opc (BitVec.ofNat 8 n)).isSome).Perm (opcodeValues opc) := by
  refine (List.perm_ext_iff_of_nodup (List.nodup_range.filter _) (opcodeValues_nodup hopc)).2 fun n => ?_
  rw [List.mem_filter, List.mem_range]
  refine ⟨fun ⟨hn, hsome⟩ => (opcodeLookup_ofNat_isSome_iff hn).1 hsome, fun hmem => ?_⟩
  obtain ⟨m, hm⟩ := mem_opcodeValues_iff.1 hmem
  have hn : n < 256 := hm ▸ (opc m).isLt
  exact ⟨hn, (opcodeLookup_ofNat_isSome_iff hn).2 hmem⟩

/-- Fifteen mnemonics with different opcodes leave 241 byte values illegal (30_encoding.md R48), whatever the table. -/
theorem length_filter_illegal {opc : OpcodeMap} (hopc : opc.Injective) :
    ((List.range 256).filter fun n => (opcodeLookup opc (BitVec.ofNat 8 n)).isNone).length = 241 := by
  have hlegal := (filter_legal_perm_opcodeValues hopc).length_eq
  have hvalues : (opcodeValues opc).length = 15 := by simp [opcodeValues, allMnemonics]
  have hsplit := (List.range 256).length_eq_length_filter_add
    fun n => (opcodeLookup opc (BitVec.ofNat 8 n)).isSome
  simp only [List.length_range, Option.not_isSome] at hsplit
  omega

namespace Machine

/-- What the fetch of an ACTIVE machine raises is what its step raises (40_dispatch_cycle.md R53, 60_exceptions.md R87). -/
theorem stepWith_of_fetchInstr_error {opc : OpcodeMap} {s : State} {e : Err} (hs : s.status = .active)
    (hf : fetchInstr opc s = .error e) : stepWith opc s = .next (s.withErr (some e)) := by
  rcases activeStep_cases opc s with ⟨i, hi, _⟩ | ⟨e', he', hstep⟩
  · cases hf.symm.trans hi
  · cases hf.symm.trans he'
    rw [stepWith_of_active hs, hstep]

/-- A byte in memory at `pc` that no mnemonic has as its opcode is rejected by the fetch (30_encoding.md R48). -/
theorem fetchInstr_of_illegal {opc : OpcodeMap} {s : State} (hpc : s.pc.toNat ≤ 255)
    (hop : ∀ m, opc m ≠ s.mem.read s.pc.toNat) :
    fetchInstr opc s = .error (.invalidOpcode (s.mem.read s.pc.toNat) s.pc.toNat) :=
  decodeFrom_illegal (s.fetchByte_of_le 0 hpc) (opcodeLookup_eq_none_iff.2 hop)

/-- Settles O8: the fetch rejects the byte and the step raises what the fetch raised; the count holds of every injective
table, the default one among them. -/
theorem illegalOpcodeRaisesInvalidOpcode : Obligations.IllegalOpcodeRaisesInvalidOpcode := by
  refine ⟨fun opc s hs hpc hop => ?_, length_filter_illegal defaultOpcode_injective⟩
  exact stepWith_of_fetchInstr_error hs (fetchInstr_of_illegal hpc hop)

end Machine

end Sys2Proof
end

section
/-! Proofs of the statements about the dispatch cycle's fetches (40_dispatch_cycle.md). -/

namespace Sys2Proof

/-- Every mnemonic, with as many operand bytes as it has, is an instruction: the decoder builds it from a source that
never runs out. -/
theorem exists_instr_operands_eq (m : Mnemonic) (f : Nat → Byte) :
    ∃ i : Instr, i.mnemonic = m ∧ i.operands = (List.range m.operandCount).map f := by
  obtain ⟨i, hi⟩ : ∃ i, decodeOperands (fun k => (.ok (f (k - 1)) : Except Empty Byte)) m = .ok i := by
    cases m <;> exact ⟨_, rfl⟩
  obtain ⟨hm, hbytes⟩ := decodeOperands_inv hi
  refine ⟨i, hm, List.ext_getElem (by simp [i.length_operands, hm]) fun k hk _ => ?_⟩
  simpa using (Except.ok.inj (hbytes k hk)).symm

namespace Machine

/-- What the fetch of an ACTIVE machine reads is what its step executes (40_dispatch_cycle.md R53). -/
theorem stepWith_of_fetchInstr_ok {opc : OpcodeMap} {s : State} {i : Instr} (hs : s.status = .active)
    (hf : fetchInstr opc s = .ok i) : stepWith opc s = exec i s := by
  rw [stepWith_of_active hs, activeStep, hf]

/-- Settles O7: inside memory by the law of the fetch; above it there is no opcode byte, so the fetch raises, and the step
with it. -/
theorem fetchReadsTheByteAtPcOrRaises : Obligations.FetchReadsTheByteAtPcOrRaises := by
  refine ⟨fun s hpc => s.fetchByte_of_le 0 hpc, fun opc s hs hpc => ?_⟩
  exact stepWith_of_fetchInstr_error hs (decodeFrom_noByte (s.fetchByte_of_gt 0 hpc))

section Opcode

variable {opc : OpcodeMap} {s : State} {m : Mnemonic}

/-- With an opcode at `pc`, the rest of the fetch is that of its operand bytes (40_dispatch_cycle.md R55, R56). -/
theorem fetchInstr_of_opcode (hopc : opc.Injective) (hpc : s.pc.toNat ≤ 255) (hop : s.mem.read s.pc.toNat = opc m) :
    fetchInstr opc s = decodeOperands s.fetchByte m :=
  decodeFrom_known ((s.fetchByte_of_le 0 hpc).trans (congrArg _ hop)) (opcodeLookup_opc hopc m)

/-- The first operand byte outside memory lies at 256: it is the first one when the opcode is at 255, the second one when
it is at 254. -/
theorem decodeOperands_fetchByte_of_gt (hpc : s.pc.toNat ≤ 255) (htop : 255 < s.pc.toNat + m.operandCount) :
    decodeOperands s.fetchByte m = .error (.addressError 256) := by
  have hcount := m.operandCount_le
  have fault : ∀ k, s.pc.toNat + k = 256 → s.fetchByte k = .error (.addressError 256) := fun k hk => by
    rw [s.fetchByte_of_gt k (by omega), hk, Nat.cast_ofNat]
  obtain h255 | h254 : s.pc.toNat = 255 ∨ s.pc.toNat = 254 := by omega
  · exact decodeOperands_missing1 (by omega) (fault 1 (by omega))
  · exact decodeOperands_missing2 (by omega) (s.fetchByte_of_le 1 (by omega)) (fault 2 (by omega))

/-- With its opcode at `pc` and its operand bytes after it, all in memory, an instruction is fetched. -/
theorem fetchInstr_of_operands {i : Instr} (hopc : opc.Injective) (hop : s.mem.read s.pc.toNat = opc i.mnemonic)
    (hmem : s.pc.toNat + i.mnemonic.operandCount ≤ 255)
    (hbytes : i.operands = bytesAt s.mem (s.pc.toNat + 1) i.mnemonic.operandCount) : fetchInstr opc s = .ok i := by
  rw [fetchInstr_of_opcode hopc (by omega) hop]
  refine decodeOperands_ok i fun k hk => ?_
  have hcount := i.length_operands
  rw [s.fetchByte_of_le (k + 1) (by omega)]
  simp [hbytes, bytesAt, Nat.add_assoc, Nat.add_comm 1 k]

end Opcode

/-- Every instruction's rule names this error: operand bytes that do not all lie in memory (40_dispatch_cycle.md R56). -/
theorem operandFetchFaults (m : Mnemonic) : OperandFetchFaults m := by
  intro opc hopc s hs hpc hop htop
  refine stepWith_of_fetchInstr_error hs ?_
  rw [fetchInstr_of_opcode hopc hpc hop, decodeOperands_fetchByte_of_gt hpc htop]

/-- Settles O9: past the top of memory by the operand fetch that raises; below it, the instruction of `m` with the bytes
that stand there is the one fetched. -/
theorem operandBytesAreFetchedAfterTheOpcode : Obligations.OperandBytesAreFetchedAfterTheOpcode := by
  intro opc hopc s m hs hpc hop
  refine ⟨operandFetchFaults m opc hopc s hs hpc hop, fun hmem => ?_⟩
  obtain ⟨i, rfl, hbytes⟩ := exists_instr_operands_eq m fun k => s.mem.read (s.pc.toNat + 1 + k)
  exact ⟨i, rfl, hbytes, stepWith_of_fetchInstr_ok hs (fetchInstr_of_operands hopc hop hmem hbytes)⟩

end Machine

end Sys2Proof
end

section
/-! Proofs of the statements about LDI and PRN (41_load_and_output.md), after what the rules of all instructions share: the
bytes an instruction is fetched from, and the check of its first register operand. -/

namespace Sys2Proof.Machine

/-! ### Bytes held in memory -/

theorem bytesAt_succ (m : Memory) (a n : Nat) : bytesAt m a (n + 1) = m.read a :: bytesAt m (a + 1) n := by
  simp [bytesAt, List.range_succ_eq_map, Function.comp_def, Nat.add_right_comm, Nat.add_assoc]

theorem holdsBytes_cons_iff {m : Memory} {a : Nat} {b : Byte} {bs : List Byte} :
    holdsBytes m a (b :: bs) ↔ m.read a = b ∧ holdsBytes m (a + 1) bs := by
  simp only [holdsBytes, List.length_cons, bytesAt_succ, List.cons.injEq, Nat.add_assoc, Nat.add_comm 1 bs.length]
  tauto

/-- Two pieces of code in a row are each held where it begins. -/
theorem holdsBytes_append_iff {m : Memory} {a : Nat} {bs cs : List Byte} :
    holdsBytes m a (bs ++ cs) ↔ holdsBytes m a bs ∧ holdsBytes m (a + bs.length) cs := by
  induction bs generalizing a with
  | nil =>
    have hle : holdsBytes m a cs → a ≤ Config.memSize := fun h => le_trans (Nat.le_add_right _ _) h.1
    simpa [holdsBytes, bytesAt] using hle
  | cons b bs ih =>
    simp only [List.cons_append, holdsBytes_cons_iff, ih, List.length_cons, Nat.add_assoc, Nat.add_comm 1 bs.length,
      and_assoc]

/-! ### What every instruction's rule says -/

/-- Every instruction's rule names its encoding: an ACTIVE machine with those bytes at `pc` executes it. -/
theorem fetchedAs_encodeWith (i : Instr) : FetchedAs i fun opc => encodeWith opc i := by
  intro opc hopc s hs hbytes
  simp only [encodeWith_eq, holdsBytes_cons_iff] at hbytes
  obtain ⟨hop, hle, hoperands⟩ := hbytes
  rw [i.length_operands] at hle hoperands
  refine stepWith_of_fetchInstr_ok hs (fetchInstr_of_operands hopc hop ?_ hoperands.symm)
  simp only [Config.memSize] at hle
  omega

/-- The check of the first register operand comes before everything else an instruction does (40_dispatch_cycle.md R57). -/
theorem exec_eq_settle_regA {i : Instr} {b : Byte} {rest : List Byte} (h : i.regOperands = b :: rest) (s : State) :
    ∃ afterCheck : Fin 8 → Except Err State, exec i s = settle s (s.regA b >>= afterCheck) := by
  cases i <;> cases h <;> exact ⟨_, rfl⟩

/-- A first register operand byte of 8 or more is the error the instruction raises (60_exceptions.md R86). -/
theorem exec_of_first_register_ge {i : Instr} {b : Byte} {rest : List Byte} (h : i.regOperands = b :: rest)
    (hb : 8 ≤ b.toNat) (s : State) :
    exec i s = .next (s.withErr (some (.registerIndexError b (s.pc.toNat + 1)))) := by
  obtain ⟨afterCheck, hexec⟩ := exec_eq_settle_regA h s
  rw [hexec, s.regA_of_ge b hb]
  rfl

/-! ### LDI and PRN -/

theorem exec_ldi_regByte (r : Fin 8) (imm : Byte) (s : State) :
    exec (.ldi (regByte r) imm) s = .next ((s.writeReg r imm).advance 3) := by
  rw [exec, execLdi, State.regA_regByte]
  rfl

theorem exec_prn_regByte (r : Fin 8) (s : State) :
    exec (.prn (regByte r)) s = .next ((s.emit (s.readReg r)).advance 2) := by
  rw [exec, execPrn, State.regA_regByte]
  rfl

/-- Settles O26: the effect is that of a named register, the errors and the encoding are those every instruction has. -/
theorem ldiLoadsTheImmediate : Obligations.LdiLoadsTheImmediate :=
  ⟨exec_ldi_regByte, fun _ _ s hb => exec_of_first_register_ge rfl hb s, fun _ _ => fetchedAs_encodeWith _, rfl,
    operandFetchFaults .ldi⟩

/-- An LDI followed at once by a PRN of its register: the PRN is fetched where the LDI leaves `pc`, and emits what the LDI
wrote (41_load_and_output.md R61). -/
theorem ldi_then_prn_emits {opc : OpcodeMap} (hopc : opc.Injective) {r : Fin 8} {v : Byte} {s : State}
    (hs : s.status = .active)
    (hcode : holdsBytes s.mem s.pc.toNat
      (encodeWith opc (.ldi (regByte r) v) ++ encodeWith opc (.prn (regByte r)))) :
    ∃ t u, stepWith opc s = .next t ∧ stepWith opc t = .next u ∧ u.out = s.out ++ [v] := by
  obtain ⟨hldi, hprn⟩ := holdsBytes_append_iff.1 hcode
  have hstep : stepWith opc s = .next ((s.writeReg r v).advance 3) :=
    (fetchedAs_encodeWith _ opc hopc s hs hldi).trans (exec_ldi_regByte r v s)
  have hpc : ((s.writeReg r v).advance 3).pc.toNat = s.pc.toNat + (encodeWith opc (.ldi (regByte r) v)).length := by
    have hle := hldi.1
    simp only [Config.memSize] at hle
    exact toNat_add_of_lt s.pc 3 (by omega)
  have hactive : ((s.writeReg r v).advance 3).status = .active := by
    simpa [State.status_active_iff] using hs
  rw [← hpc] at hprn
  refine ⟨_, _, hstep, (fetchedAs_encodeWith _ opc hopc _ hactive hprn).trans (exec_prn_regByte r _), ?_⟩
  simp [State.readReg_eq]

/-- Settles O27: as for LDI, and the property of the two in a row. -/
theorem prnEmitsTheRegister : Obligations.PrnEmitsTheRegister :=
  ⟨exec_prn_regByte, fun _ s hb => exec_of_first_register_ge rfl hb s, fun _ => fetchedAs_encodeWith _, rfl,
    operandFetchFaults .prn, fun _ hopc _ _ _ hs hcode => ldi_then_prn_emits hopc hs hcode⟩

end Sys2Proof.Machine
end

section
/-! Proofs of the statements about the ALU and its instructions (42_alu.md), after what they share: the arithmetic of bytes as
arithmetic modulo 256, and the check of a second register operand. -/

namespace Sys2Proof.Machine

/-! ### Bytes are numbers modulo 256 -/

theorem byte_add_eq (a b : Byte) : a + b = BitVec.ofNat 8 ((a.toNat + b.toNat) % 256) :=
  BitVec.eq_of_toNat_eq (by simp)

theorem byte_mul_eq (a b : Byte) : a * b = BitVec.ofNat 8 ((a.toNat * b.toNat) % 256) :=
  BitVec.eq_of_toNat_eq (by simp)

theorem byte_succ_eq (a : Byte) : a + 1 = BitVec.ofNat 8 ((a.toNat + 1) % 256) := byte_add_eq a 1

/-- Decrementing 0 gives 255 (42_alu.md R63). -/
theorem toNat_byte_pred (a : Byte) : (a - 1).toNat = if a.toNat = 0 then 255 else a.toNat - 1 := by
  split <;> bv_omega

theorem byte_pred_eq (a : Byte) : a - 1 = BitVec.ofInt 8 (((a.toNat : Int) - 1) % 256) := by
  have := a.isLt
  refine BitVec.eq_of_toNat_eq ?_
  rw [toNat_byte_pred, BitVec.toNat_ofInt]
  split <;> omega

/-! ### Only CMP writes the flags -/

theorem Completes.fl_eq {s t : State} {i : Instr} (h : Completes s t i) (hi : i.mnemonic ≠ .cmp) : t.fl = s.fl := by
  cases i with
  | cmp a b => exact absurd rfl hi
  | mult a b | add a b => obtain ⟨p, q, -, -, rfl⟩ := h; rfl
  | ldi b imm => obtain ⟨r, -, rfl⟩ := h; rfl
  | prn b | inc b | dec b | jmp b => obtain ⟨r, -, rfl⟩ := h; rfl
  | jeq b | jne b => obtain ⟨r, -, rfl⟩ := h; split <;> rfl
  | push b | call b => obtain ⟨r, -, -, -, rfl⟩ := h; rfl
  | pop b => obtain ⟨r, -, -, rfl⟩ := h; rfl
  | ret => obtain ⟨-, rfl⟩ := h; rfl
  | hlt => cases h; rfl

theorem exec_fl_eq {s t : State} {i : Instr} (hi : i.mnemonic ≠ .cmp) (h : exec i s = .next t) : t.fl = s.fl := by
  obtain hc | ⟨e, rfl, -⟩ := exec_next_cases h
  · exact hc.fl_eq hi
  · rfl

/-- Settles O25: each result is the value of a byte operation modulo 256, and no instruction but CMP writes `fl`. -/
theorem aluArithmeticWrapsModulo256 : Obligations.AluArithmeticWrapsModulo256 := by
  refine ⟨fun a b => ⟨⟨_, alu_add a b, BitVec.toNat_add a b⟩, ⟨_, alu_mult a b, BitVec.toNat_mul a b⟩,
    ⟨_, alu_inc a b, BitVec.toNat_add a 1⟩, ⟨_, alu_dec a b, toNat_byte_pred a⟩⟩, fun i s t hi h => exec_fl_eq ?_ h⟩
  exact fun hcmp => by simp [hcmp] at hi

/-! ### The second register operand -/

/-- The checks of two register operands, the first one first, come before everything else an instruction does
(40_dispatch_cycle.md R57). -/
theorem exec_eq_settle_regA_regB {i : Instr} {a b : Byte} (h : i.regOperands = [a, b]) (s : State) :
    ∃ afterChecks : Fin 8 → Fin 8 → Except Err State,
      exec i s = settle s (s.regA a >>= fun p => s.regB b >>= afterChecks p) := by
  cases i <;> cases h <;> exact ⟨_, rfl⟩

/-- A second register operand byte of 8 or more, after a good first one, is the error the instruction raises
(60_exceptions.md R86). -/
theorem exec_of_second_register_ge {i : Instr} {p : Fin 8} {b : Byte} (h : i.regOperands = [regByte p, b])
    (hb : 8 ≤ b.toNat) (s : State) :
    exec i s = .next (s.withErr (some (.registerIndexError b (s.pc.toNat + 2)))) := by
  obtain ⟨afterChecks, hexec⟩ := exec_eq_settle_regA_regB h s
  rw [hexec, s.regA_regByte, s.regB_of_ge b hb]
  rfl

/-! ### The five instructions on named registers -/

theorem exec_mult_regByte (a b : Fin 8) (s : State) :
    exec (.mult (regByte a) (regByte b)) s = .next ((s.writeReg a (s.readReg a * s.readReg b)).advance 3) := by
  rw [exec, execMult, s.regA_regByte, s.regB_regByte]
  rfl

theorem exec_add_regByte (a b : Fin 8) (s : State) :
    exec (.add (regByte a) (regByte b)) s = .next ((s.writeReg a (s.readReg a + s.readReg b)).advance 3) := by
  rw [exec, execAdd, s.regA_regByte, s.regB_regByte]
  rfl

theorem exec_inc_regByte (r : Fin 8) (s : State) :
    exec (.inc (regByte r)) s = .next ((s.writeReg r (s.readReg r + 1)).advance 2) := by
  rw [exec, execInc, s.regA_regByte]
  rfl

theorem exec_dec_regByte (r : Fin 8) (s : State) :
    exec (.dec (regByte r)) s = .next ((s.writeReg r (s.readReg r - 1)).advance 2) := by
  rw [exec, execDec, s.regA_regByte]
  rfl

theorem exec_cmp_regByte (a b : Fin 8) (s : State) :
    exec (.cmp (regByte a) (regByte b)) s =
      .next ((s.withFl (compareFlags (s.readReg a) (s.readReg b))).advance 3) := by
  rw [exec, execCmp, s.regA_regByte, s.regB_regByte]
  rfl

/-- Settles O28: the effect is the byte product; the errors and the encoding are those every instruction has. -/
theorem multMultipliesModulo256 : Obligations.MultMultipliesModulo256 := by
  refine ⟨fun a b s => ?_, fun _ _ s ha => exec_of_first_register_ge rfl ha s,
    fun _ _ s hb => exec_of_second_register_ge rfl hb s, fun _ _ => fetchedAs_encodeWith _, rfl,
    operandFetchFaults .mult⟩
  rw [exec_mult_regByte, byte_mul_eq]
  rfl

/-- Settles O29: the effect is the byte sum; the errors and the encoding are those every instruction has. -/
theorem addAddsModulo256 : Obligations.AddAddsModulo256 := by
  refine ⟨fun a b s => ?_, fun _ _ s ha => exec_of_first_register_ge rfl ha s,
    fun _ _ s hb => exec_of_second_register_ge rfl hb s, fun _ _ => fetchedAs_encodeWith _, rfl,
    operandFetchFaults .add⟩
  rw [exec_add_regByte, byte_add_eq]
  rfl

/-- Settles O30: the effect is the byte successor; the errors and the encoding are those every instruction has. -/
theorem incIncrementsModulo256 : Obligations.IncIncrementsModulo256 := by
  refine ⟨fun r s => ?_, fun _ s hb => exec_of_first_register_ge rfl hb s, fun _ => fetchedAs_encodeWith _, rfl,
    operandFetchFaults .inc⟩
  rw [exec_inc_regByte, byte_succ_eq]
  rfl

/-- Settles O31: the effect is the byte predecessor; the errors and the encoding are those every instruction has. -/
theorem decDecrementsModulo256 : Obligations.DecDecrementsModulo256 := by
  refine ⟨fun r s => ?_, fun _ s hb => exec_of_first_register_ge rfl hb s, fun _ => fetchedAs_encodeWith _, rfl,
    operandFetchFaults .dec⟩
  rw [exec_dec_regByte, byte_pred_eq]
  rfl

/-- Settles O32: the flags are those of the comparison; the errors and the encoding are those every instruction has. -/
theorem cmpSetsExactlyOneFlag : Obligations.CmpSetsExactlyOneFlag :=
  ⟨exec_cmp_regByte, fun _ _ s ha => exec_of_first_register_ge rfl ha s,
    fun _ _ s hb => exec_of_second_register_ge rfl hb s, fun _ _ => fetchedAs_encodeWith _, rfl,
    operandFetchFaults .cmp⟩

/-! ### The conditional jumps after a comparison -/

theorem compareFlags_of_eq {a b : Byte} (h : a = b) : compareFlags a b = flagE := if_pos h

theorem compareFlags_of_lt {a b : Byte} (h : a.toNat < b.toNat) : compareFlags a b = flagL := by
  rw [compareFlags, if_neg fun hab => h.ne (congrArg _ hab), if_pos h]

theorem compareFlags_of_gt {a b : Byte} (h : b.toNat < a.toNat) : compareFlags a b = flagG := by
  rw [compareFlags, if_neg fun hab => h.ne' (congrArg _ hab), if_neg h.asymm]

theorem exec_jeq_regByte (r : Fin 8) (s : State) :
    exec (.jeq (regByte r)) s = .next (if s.equalFlag then s.jumpTo r else s.advance 2) := by
  rw [exec, execJeq, s.regA_regByte]
  rfl

theorem exec_jne_regByte (r : Fin 8) (s : State) :
    exec (.jne (regByte r)) s = .next (if s.equalFlag then s.advance 2 else s.jumpTo r) := by
  rw [exec, execJne, s.regA_regByte]
  rfl

theorem State.jumpTo_eq (s : State) (r : Fin 8) : s.jumpTo r = { s with pc := BitVec.ofNat 9 s.x[r].toNat } :=
  congrArg s.withPc (BitVec.ofNat_toNat 9 s.x[r]).symm

/-- With E set JEQ goes to its register and JNE goes on (44_control_flow.md R77, R78). -/
theorem exec_jumps_of_equalFlag {s : State} (h : s.equalFlag = true) (r : Fin 8) :
    exec (.jeq (regByte r)) s = .next { s with pc := BitVec.ofNat 9 s.x[r].toNat } ∧
      exec (.jne (regByte r)) s = .next { s with pc := s.pc + 2 } := by
  rw [exec_jeq_regByte, exec_jne_regByte, if_pos h, if_pos h, State.jumpTo_eq]
  exact ⟨rfl, rfl⟩

/-- With E clear JEQ goes on and JNE goes to its register (44_control_flow.md R77, R78). -/
theorem exec_jumps_of_not_equalFlag {s : State} (h : ¬ s.equalFlag = true) (r : Fin 8) :
    exec (.jeq (regByte r)) s = .next { s with pc := s.pc + 2 } ∧
      exec (.jne (regByte r)) s = .next { s with pc := BitVec.ofNat 9 s.x[r].toNat } := by
  rw [exec_jeq_regByte, exec_jne_regByte, if_neg h, if_neg h, State.jumpTo_eq]
  exact ⟨rfl, rfl⟩

/-- What CMP leaves in E is whether its registers were equal (42_alu.md R69, R70). -/
theorem equalFlag_after_cmp_iff (a b : Fin 8) (s : State) :
    ((s.withFl (compareFlags (s.readReg a) (s.readReg b))).advance 3).equalFlag = true ↔ s.x[a] = s.x[b] := by
  rw [State.equalFlag, State.advance_fl, State.withFl_fl, compareFlags_bit0, decide_eq_true_iff]
  rfl

/-- Settles O41: CMP leaves one flag by the comparison and the registers as they were, and only E decides the jumps. -/
theorem jumpsFollowTheComparison : Obligations.JumpsFollowTheComparison := by
  refine ⟨fun a b r s => ⟨_, exec_cmp_regByte a b s, fun heq => ?_, fun hlt => ?_, fun hgt => ?_⟩,
    fun r s hfl => ?_, rfl⟩
  · exact ⟨compareFlags_of_eq heq, exec_jumps_of_equalFlag ((equalFlag_after_cmp_iff a b s).2 heq) r⟩
  · have hne : s.x[a] ≠ s.x[b] := fun h => hlt.ne (congrArg _ h)
    exact ⟨compareFlags_of_lt hlt, exec_jumps_of_not_equalFlag (mt (equalFlag_after_cmp_iff a b s).1 hne) r⟩
  · have hne : s.x[a] ≠ s.x[b] := fun h => hgt.ne' (congrArg _ h)
    exact ⟨compareFlags_of_gt hgt, exec_jumps_of_not_equalFlag (mt (equalFlag_after_cmp_iff a b s).1 hne) r⟩
  · exact exec_jumps_of_not_equalFlag (by simp [State.equalFlag, hfl]) r

end Sys2Proof.Machine
end

section
/-! Proofs of the statements about PUSH and POP (43_stack.md). -/

namespace Sys2Proof.Machine

/-! ### The stack pointer is a number -/

theorem ptr_pred_eq {p : Ptr} (h : 1 ≤ p.toNat) : p - 1 = BitVec.ofNat 9 (p.toNat - 1) := by
  rw [← toNat_pred p h, BitVec.ofNat_toNat, BitVec.setWidth_eq]

theorem ptr_succ_eq (p : Ptr) : p + 1 = BitVec.ofNat 9 (p.toNat + 1) :=
  BitVec.eq_of_toNat_eq (by simp)

/-! ### PUSH -/

/-- On a named register only the push itself can fail (43_stack.md R71). -/
theorem exec_push_regByte (r : Fin 8) (s : State) :
    exec (.push (regByte r)) s = settle s (pushByte s (s.readReg r) >>= fun t => .ok (t.advance 2)) := by
  rw [exec, execPush, s.regA_regByte]
  rfl

theorem exec_push_of_room {s : State} (h₁ : 1 ≤ s.sp.toNat) (h₂ : s.sp.toNat ≤ 256) (r : Fin 8) :
    exec (.push (regByte r)) s =
      .next (((s.withMem (s.mem.write (s.sp.toNat - 1) (s.readReg r))).withSp
        (BitVec.ofNat 9 (s.sp.toNat - 1))).advance 2) := by
  rw [exec_push_regByte, pushByte_ok s _ h₁ h₂, ptr_pred_eq h₁]
  rfl

theorem exec_push_of_no_room {s : State} (h : s.sp.toNat = 0 ∨ 256 < s.sp.toNat) (r : Fin 8) :
    exec (.push (regByte r)) s = .next (s.withErr (some (.addressError s.pushAddr))) := by
  rw [exec_push_regByte, pushByte_error s _ h]
  rfl

/-- Settles O33: the effect and the stack error are those of the push, on either side of its range; the other errors and the
encoding are those every instruction has. -/
theorem pushStoresBelowTheStackTop : Obligations.PushStoresBelowTheStackTop :=
  ⟨fun r _ h₁ h₂ => exec_push_of_room h₁ h₂ r, fun _ s hb => exec_of_first_register_ge rfl hb s,
    fun r _ h => exec_push_of_no_room h r, fun _ => fetchedAs_encodeWith _, rfl, operandFetchFaults .push⟩

/-! ### POP -/

/-- On a named register only the pop itself can fail (43_stack.md R72). -/
theorem exec_pop_regByte (r : Fin 8) (s : State) :
    exec (.pop (regByte r)) s = settle s (popByte s >>= fun (v, t) => .ok ((t.writeReg r v).advance 2)) := by
  rw [exec, execPop, s.regA_regByte]
  rfl

theorem exec_pop_of_inside {s : State} (h : s.sp.toNat ≤ 255) (r : Fin 8) :
    exec (.pop (regByte r)) s =
      .next (((s.withSp (BitVec.ofNat 9 (s.sp.toNat + 1))).writeReg r (s.mem.read s.sp.toNat)).advance 2) := by
  rw [exec_pop_regByte, popByte_ok s h, ptr_succ_eq]
  rfl

theorem exec_pop_of_outside {s : State} (h : 255 < s.sp.toNat) (r : Fin 8) :
    exec (.pop (regByte r)) s = .next (s.withErr (some (.addressError s.popAddr))) := by
  rw [exec_pop_regByte, popByte_error s h]
  rfl

/-- Settles O34: the effect and the stack error are those of the pop, on either side of its range; the other errors and the
encoding are those every instruction has. -/
theorem popLoadsTheStackTop : Obligations.PopLoadsTheStackTop :=
  ⟨fun r _ h => exec_pop_of_inside h r, fun _ s hb => exec_of_first_register_ge rfl hb s,
    fun r _ h => exec_pop_of_outside h r, fun _ => fetchedAs_encodeWith _, rfl, operandFetchFaults .pop⟩

end Sys2Proof.Machine
end

section
/-! Proofs of the statements about CALL, RET and the jumps (44_control_flow.md). -/

namespace Sys2Proof.Machine

/-! ### CALL -/

/-- On a named register only the push of the saved address can fail (44_control_flow.md R74). -/
theorem exec_call_regByte (r : Fin 8) (s : State) :
    exec (.call (regByte r)) s = settle s (pushByte s s.callSave >>= fun t => .ok (t.jumpTo r)) := by
  rw [exec, execCall, s.regA_regByte]
  rfl

theorem State.callSave_eq (s : State) : s.callSave = BitVec.ofNat 8 s.pc.toNat := (BitVec.ofNat_toNat 8 s.pc).symm

theorem exec_call_of_room {s : State} (h₁ : 1 ≤ s.sp.toNat) (h₂ : s.sp.toNat ≤ 256) (r : Fin 8) :
    exec (.call (regByte r)) s =
      .next { s with
        mem := s.mem.write (s.sp.toNat - 1) (BitVec.ofNat 8 s.pc.toNat)
        sp := BitVec.ofNat 9 (s.sp.toNat - 1)
        pc := BitVec.ofNat 9 s.x[r].toNat } := by
  rw [exec_call_regByte, pushByte_ok s _ h₁ h₂, ptr_pred_eq h₁, s.callSave_eq]
  exact congrArg Host.Outcome.next (State.jumpTo_eq _ r)

theorem exec_call_of_no_room {s : State} (h : s.sp.toNat = 0 ∨ 256 < s.sp.toNat) (r : Fin 8) :
    exec (.call (regByte r)) s = .next (s.withErr (some (.addressError s.pushAddr))) := by
  rw [exec_call_regByte, pushByte_error s _ h]
  rfl

/-- Settles O35: the effect and the stack error are those of the push, on either side of its range, and the saved byte is
`pc`; the other errors and the encoding are those every instruction has. -/
theorem callSavesItsOwnAddress : Obligations.CallSavesItsOwnAddress :=
  ⟨fun r _ _ h₁ h₂ => exec_call_of_room h₁ h₂ r, fun _ s hb => exec_of_first_register_ge rfl hb s,
    fun r _ h => exec_call_of_no_room h r, fun _ => fetchedAs_encodeWith _, rfl, operandFetchFaults .call⟩

/-! ### RET -/

/-- The address RET goes to, as a number computed from the byte it popped (44_control_flow.md R75). -/
theorem zext9_add_two_eq (v : Byte) : zext9 v + 2 = BitVec.ofNat 9 (v.toNat + 2) := by
  rw [BitVec.ofNat_add, ← toNat_zext9, BitVec.ofNat_toNat, BitVec.setWidth_eq]
  rfl

theorem exec_ret_of_inside {s : State} (h : s.sp.toNat ≤ 255) :
    exec .ret s =
      .next ((s.withSp (BitVec.ofNat 9 (s.sp.toNat + 1))).withPc
        (BitVec.ofNat 9 ((s.mem.read s.sp.toNat).toNat + 2))) := by
  rw [exec, execRet, popByte_ok s h, ptr_succ_eq, ← zext9_add_two_eq]
  rfl

theorem exec_ret_of_outside {s : State} (h : 255 < s.sp.toNat) :
    exec .ret s = .next (s.withErr (some (.addressError s.popAddr))) := by
  rw [exec, execRet, popByte_error s h]
  rfl

/-- Settles O36: the effect and the stack error are those of the pop, on either side of its range; the encoding is that
every instruction has. -/
theorem retGoesTwoPastTheSavedAddress : Obligations.RetGoesTwoPastTheSavedAddress :=
  ⟨fun _ h => exec_ret_of_inside h, fun _ h => exec_ret_of_outside h, fetchedAs_encodeWith _, rfl⟩

/-! ### The jumps -/

theorem exec_jmp_regByte (r : Fin 8) (s : State) :
    exec (.jmp (regByte r)) s = .next { s with pc := BitVec.ofNat 9 s.x[r].toNat } := by
  rw [exec, execJmp, s.regA_regByte, ← s.jumpTo_eq]
  rfl

/-- Settles O37: the effect is that of a named register, the errors and the encoding are those every instruction has. -/
theorem jmpGoesToTheRegister : Obligations.JmpGoesToTheRegister :=
  ⟨exec_jmp_regByte, fun _ s hb => exec_of_first_register_ge rfl hb s, fun _ => fetchedAs_encodeWith _, rfl,
    operandFetchFaults .jmp⟩

/-- E is bit 0 of `fl`, its value modulo 2 (10_state.md R13). -/
theorem State.equalFlag_iff (s : State) : s.equalFlag = true ↔ s.fl.toNat % 2 = 1 := by
  rw [State.equalFlag, BitVec.getLsbD, Nat.testBit_zero, decide_eq_true_iff]

/-- Settles O38: bit 0 of `fl` is E, and with E set or clear the jump has its law; the errors and the encoding are those
every instruction has. -/
theorem jeqIsTakenWhenEqualIsSet : Obligations.JeqIsTakenWhenEqualIsSet := by
  refine ⟨fun r s => ?_, fun _ s hb => exec_of_first_register_ge rfl hb s, fun _ => fetchedAs_encodeWith _, rfl,
    operandFetchFaults .jeq⟩
  by_cases hE : s.fl.toNat % 2 = 1
  · rw [if_pos hE]
    exact (exec_jumps_of_equalFlag (s.equalFlag_iff.2 hE) r).1
  · rw [if_neg hE]
    exact (exec_jumps_of_not_equalFlag (mt s.equalFlag_iff.1 hE) r).1

/-- Settles O39: as for JEQ, with the two cases exchanged. -/
theorem jneIsTakenWhenEqualIsClear : Obligations.JneIsTakenWhenEqualIsClear := by
  refine ⟨fun r s => ?_, fun _ s hb => exec_of_first_register_ge rfl hb s, fun _ => fetchedAs_encodeWith _, rfl,
    operandFetchFaults .jne⟩
  by_cases hE : s.fl.toNat % 2 = 1
  · rw [if_neg (by omega)]
    exact (exec_jumps_of_equalFlag (s.equalFlag_iff.2 hE) r).2
  · rw [if_pos (by omega)]
    exact (exec_jumps_of_not_equalFlag (mt s.equalFlag_iff.1 hE) r).2

end Sys2Proof.Machine
end

section
/-! Proofs of the statements about HLT (45_halt.md). -/

namespace Sys2Proof.Machine

/-- HLT has no check that could fail: it completes from every state (45_halt.md R81). -/
theorem exec_hlt (s : State) : exec .hlt s = .next ((s.withRunning false).advance 1) := execHlt_eq s

/-- After HLT from a state with no error the machine is HALTED (10_state.md R15, 45_halt.md R81). -/
theorem status_after_hlt {s t : State} (herr : s.err = none) (h : exec .hlt s = .next t) : t.status = .halted := by
  cases (exec_hlt s).symm.trans h
  exact (State.status_halted_iff _).2 ⟨herr, rfl⟩

/-- A HALTED machine takes no further step (10_state.md R15, R22). -/
theorem stepWith_of_halted {s : State} (h : s.status = .halted) (opc : OpcodeMap) : stepWith opc s = .next s :=
  stepWith_of_not_active (by simp [h])

/-- Settles O40: the effect is that of an instruction with nothing to check; the state it leaves is HALTED, which no step
changes; the encoding is that every instruction has. -/
theorem hltHaltsForGood : Obligations.HltHaltsForGood := by
  refine ⟨exec_hlt, fun opc s t herr h => ?_, fetchedAs_encodeWith _, rfl⟩
  have hhalted : t.status = .halted := status_after_hlt herr h
  exact ⟨hhalted, stepWith_of_halted hhalted opc⟩

end Sys2Proof.Machine
end

section
/-! Proofs of the statements about errors (60_exceptions.md): what raising one does, that an error comes with no other
change, and which error a step raises. -/

namespace Sys2Proof

/-! ### Register operands among the operand bytes -/

/-- The operand bytes that name a register: both of format RR, and the first one of every other format
(30_encoding.md R42 to R44). -/
theorem Instr.regOperands_eq (i : Instr) :
    i.regOperands = if i.mnemonic.format = .rr then i.operands else i.operands.take 1 := by
  cases i <;> rfl

namespace Machine

/-! ### Raising an error -/

/-- A machine with an error is FAULTED (10_state.md R15). -/
theorem status_withErr_some (s : State) (e : Err) : (s.withErr (some e)).status = .faulted :=
  (State.status_faulted_iff _).2 (Option.some_ne_none e)

/-- A run from a state that is not ACTIVE takes no step, whatever its fuel (10_state.md R21, R22). -/
theorem runWith_of_not_active {s : State} (h : s.status ≠ .active) (opc : OpcodeMap) (n : Nat) :
    runWith opc n s = some s := by
  unfold runWith
  cases hs : s.status with
  | active => exact absurd hs h
  | halted | faulted => rfl

/-- Settles O12: the state an error leaves is FAULTED, hence not ACTIVE, and neither a step nor a run changes such a
state. -/
theorem raiseRecordsTheErrorAndStops : Obligations.RaiseRecordsTheErrorAndStops := by
  intro e s
  have hfaulted := status_withErr_some s e
  have hinactive : (s.withErr (some e)).status ≠ .active := by simp [hfaulted]
  exact ⟨raise_eq e s, hfaulted, fun opc => ⟨stepWith_of_not_active hinactive, runWith_of_not_active hinactive opc⟩⟩

/-! ### An error comes with no other change -/

/-- No instruction that completes writes `err` (60_exceptions.md R87, R89). -/
theorem Completes.err_eq {s t : State} {i : Instr} (h : Completes s t i) : t.err = s.err := by
  cases i with
  | mult a b | add a b | cmp a b => obtain ⟨p, q, -, -, rfl⟩ := h; rfl
  | ldi b imm => obtain ⟨r, -, rfl⟩ := h; rfl
  | prn b | inc b | dec b | jmp b => obtain ⟨r, -, rfl⟩ := h; rfl
  | jeq b | jne b => obtain ⟨r, -, rfl⟩ := h; split <;> rfl
  | push b | call b => obtain ⟨r, -, -, -, rfl⟩ := h; rfl
  | pop b => obtain ⟨r, -, -, rfl⟩ := h; rfl
  | ret => obtain ⟨-, rfl⟩ := h; rfl
  | hlt => cases h; rfl

/-- An instruction leaves `err` alone or changes `err` alone (60_exceptions.md R88). -/
theorem exec_err_eq_or_withErr {s t : State} {i : Instr} (h : exec i s = .next t) :
    t.err = s.err ∨ ∃ e, t = s.withErr (some e) := by
  obtain hc | ⟨e, ht, -⟩ := exec_next_cases h
  · exact .inl hc.err_eq
  · exact .inr ⟨e, ht⟩

/-- Settles O13: an instruction by what it can do to `err`; a step by what it can do, where a machine that is not ACTIVE
keeps its `err`, and an ACTIVE one has none. -/
theorem errorsArePrecise : Obligations.ErrorsArePrecise := by
  refine ⟨fun i s t => exec_err_eq_or_withErr, fun opc s t ht herr => ?_⟩
  obtain ⟨-, hstep⟩ | ⟨hs, i, -, hstep⟩ | ⟨hs, e, -, hstep⟩ := stepWith_cases opc s
  · cases hstep.symm.trans ht
    exact absurd rfl herr
  · exact ⟨(s.status_active_iff.1 hs).1, (exec_err_eq_or_withErr (hstep.symm.trans ht)).resolve_left herr⟩
  · cases hstep.symm.trans ht
    exact ⟨(s.status_active_iff.1 hs).1, e, rfl⟩

/-! ### Bad register bytes -/

theorem namesReg_iff_lt (b : Byte) : b.namesReg = true ↔ b.toNat < 8 := decide_eq_true_iff

/-- As `exec_of_second_register_ge`, with the first byte known good by its value. -/
theorem exec_of_first_lt_second_ge {i : Instr} {a b : Byte} (h : i.regOperands = [a, b]) (ha : a.toNat < 8)
    (hb : 8 ≤ b.toNat) (s : State) :
    exec i s = .next (s.withErr (some (.registerIndexError b (s.pc.toNat + 2)))) := by
  obtain ⟨p, rfl⟩ := (namesReg_iff a).1 ((namesReg_iff_lt a).2 ha)
  exact exec_of_second_register_ge h hb s

/-- Settles O11: the check of each register operand byte, the first one first. -/
theorem badRegisterByteRaisesRegisterIndexError : Obligations.BadRegisterByteRaisesRegisterIndexError :=
  ⟨fun _ s _ _ h hb => exec_of_first_register_ge h hb s, fun _ s _ _ h ha hb => exec_of_first_lt_second_ge h ha hb s⟩

/-! ### The stack check is the last one -/

/-- An instruction that completes met no stack error. -/
theorem Completes.stackError_eq_none {s t : State} {i : Instr} (h : Completes s t i) :
    stackError i.mnemonic s.sp = none := by
  cases i with
  | push b | call b => obtain ⟨r, -, h₁, h₂, -⟩ := h; exact if_neg (by omega)
  | pop b => obtain ⟨r, -, h₁, -⟩ := h; exact if_neg (by omega)
  | ret => obtain ⟨h₁, -⟩ := h; exact if_neg (by omega)
  | _ => rfl

/-- With good register bytes, the error an instruction raises is that of its stack address. -/
theorem Raises.stackError_eq_some {s : State} {e : Err} {i : Instr} (h : Raises s e i) (hwf : i.wellFormed = true) :
    stackError i.mnemonic s.sp = some e := by
  obtain ⟨b, hmem, hb, -⟩ | ⟨hm, hsp, rfl⟩ | ⟨hm, hsp, rfl⟩ := h
  · have hlt : b.toNat < 8 := (namesReg_iff_lt b).1 (List.all_eq_true.1 hwf b hmem)
    omega
  · obtain hm | hm : i.mnemonic = .push ∨ i.mnemonic = .call := by simpa using hm
    all_goals rw [hm]; exact if_pos hsp
  · obtain hm | hm : i.mnemonic = .pop ∨ i.mnemonic = .ret := by simpa using hm
    all_goals rw [hm]; exact if_pos hsp

/-! ### The first error of the list -/

/-- The outcome `o` from `s` is the one its error, if any, calls for (60_exceptions.md R87, R88): that error recorded and
nothing else changed; and where there is none, a next state with the `err` of `s`. -/
def Answers (s : State) (o : Host.Outcome State Fault Refusal) : Option Err → Prop
  | some e => o = .next (s.withErr (some e))
  | none => ∃ t, o = .next t ∧ t.err = s.err

/-- Once the register bytes are good, an instruction raises its stack error, or completes. -/
theorem exec_answers_stackError {i : Instr} (hwf : i.wellFormed = true) (s : State) :
    Answers s (exec i s) (stackError i.mnemonic s.sp) := by
  obtain ⟨t, hexec, hc⟩ | ⟨e, hexec, hr⟩ := exec_cases s i
  · rw [hc.stackError_eq_none]
    exact ⟨t, hexec, hc.err_eq⟩
  · rw [hr.stackError_eq_some hwf]
    exact hexec

/-- With a byte at `pc` that the table knows and all operand bytes in memory, the instruction made of them is fetched
(40_dispatch_cycle.md R55, R56). -/
theorem fetchInstr_of_lookup {opc : OpcodeMap} {s : State} {m : Mnemonic}
    (hl : opcodeLookup opc (s.mem.read s.pc.toNat) = some m) (hmem : s.pc.toNat + m.operandCount ≤ 255) :
    ∃ i : Instr, i.mnemonic = m ∧ i.operands = bytesAt s.mem (s.pc.toNat + 1) m.operandCount ∧
      fetchInstr opc s = .ok i := by
  obtain ⟨i, rfl, hbytes⟩ := exists_instr_operands_eq m fun k => s.mem.read (s.pc.toNat + 1 + k)
  refine ⟨i, rfl, hbytes, decodeFrom_ok_iff.2 ⟨_, s.fetchByte_of_le 0 (by omega), hl, fun k hk => ?_⟩⟩
  have hcount := i.length_operands
  rw [s.fetchByte_of_le (k + 1) (by omega)]
  simp [hbytes, Nat.add_assoc, Nat.add_comm 1 k]

/-- Of the bytes an instruction was fetched from, those that name a register: the one at `pc + 1`, where it has an operand,
and in format RR also the one at `pc + 2` (30_encoding.md R42 to R44). -/
theorem regOperands_of_bytesAt {m : Memory} {p : Nat} {i : Instr}
    (hbytes : i.operands = bytesAt m (p + 1) i.mnemonic.operandCount) :
    i.regOperands = (if 1 ≤ i.mnemonic.operandCount then [m.read (p + 1)] else []) ++
      (if i.mnemonic.format = .rr then [m.read (p + 2)] else []) := by
  rw [i.regOperands_eq, hbytes, Mnemonic.operandCount]
  cases i.mnemonic.format <;> rfl

/-- An instruction made of these bytes is well formed iff neither register condition of the list applies
(60_exceptions.md R90). -/
theorem wellFormed_iff_of_bytesAt {m : Memory} {p : Nat} {i : Instr}
    (hbytes : i.operands = bytesAt m (p + 1) i.mnemonic.operandCount) :
    i.wellFormed = true ↔ ¬(1 ≤ i.mnemonic.operandCount ∧ 8 ≤ (m.read (p + 1)).toNat) ∧
      ¬(i.mnemonic.format = .rr ∧ 8 ≤ (m.read (p + 2)).toNat) := by
  rw [Instr.wellFormed, regOperands_of_bytesAt hbytes]
  simp [namesReg_iff_lt]

/-- An ACTIVE machine answers by the list of 60_exceptions.md R90: the fetch meets its first four conditions, in order, and
the instruction fetched the other three. -/
theorem stepWith_answers_firstError {opc : OpcodeMap} {s : State} (hs : s.status = .active) :
    Answers s (stepWith opc s) (firstError opc s) := by
  simp only [firstError]
  split
  · next hpc => exact stepWith_of_fetchInstr_error hs (decodeFrom_noByte (s.fetchByte_of_gt 0 hpc))
  next hpc =>
  have hop := s.fetchByte_of_le 0 (Nat.le_of_not_lt hpc)
  split
  · next hl => exact stepWith_of_fetchInstr_error hs (decodeFrom_illegal hop hl)
  next m hl =>
  have hfetch : fetchInstr opc s = decodeOperands s.fetchByte m := decodeFrom_known hop hl
  have hcount := m.operandCount_le
  split
  · next hfst =>
    have hmissing := decodeOperands_missing1 hfst.1 (s.fetchByte_of_gt 1 hfst.2)
    exact stepWith_of_fetchInstr_error hs (hfetch.trans hmissing)
  next hfst =>
  split
  · next hsnd =>
    have hmissing := decodeOperands_missing2 (m := m) (by omega) (s.fetchByte_of_le 1 (by omega))
      (s.fetchByte_of_gt 2 hsnd.2)
    exact stepWith_of_fetchInstr_error hs (hfetch.trans hmissing)
  next hsnd =>
  obtain ⟨i, rfl, hbytes, hi⟩ := fetchInstr_of_lookup hl (by omega)
  have hreg := regOperands_of_bytesAt hbytes
  rw [stepWith_of_fetchInstr_ok hs hi]
  split
  · next hbad =>
    rw [if_pos hbad.1] at hreg
    exact exec_of_first_register_ge hreg hbad.2 s
  next hgood =>
  split
  · next hbad =>
    have hone : 1 ≤ i.mnemonic.operandCount := by simp [Mnemonic.operandCount, hbad.1, Format.operandCount]
    rw [if_pos hone, if_pos hbad.1] at hreg
    exact exec_of_first_lt_second_ge hreg (by omega) hbad.2 s
  next hgood' => exact exec_answers_stackError ((wellFormed_iff_of_bytesAt hbytes).2 ⟨hgood, hgood'⟩) s

/-- Settles O10: what an ACTIVE machine answers to `firstError`, read for an error and for none. -/
theorem stepRaisesExactlyTheFirstError : Obligations.StepRaisesExactlyTheFirstError := by
  intro opc s hs
  have hanswers := stepWith_answers_firstError (opc := opc) hs
  refine ⟨fun e he => by rwa [he] at hanswers, fun hnone => ?_⟩
  rw [hnone] at hanswers
  obtain ⟨t, hstep, herr⟩ := hanswers
  exact ⟨t, hstep, herr.trans (s.status_active_iff.1 hs).1⟩

end Machine

end Sys2Proof
end

section
/-! Proofs of the statements about reset and load (70_reset_and_hazards.md), after what the loader does to any state. -/

namespace Sys2Proof.Machine

/-! ### The loader -/

/-- A load succeeds iff the program fits into memory, and it leaves the state with the program put there. -/
theorem State.load_eq_some_iff {s t : State} {program : List Byte} :
    s.load program = some t ↔
      program.length ≤ Config.memSize ∧ t = s.withMem (s.mem.writeBytes 0 program) := by
  simp only [State.load, Option.ite_none_right_eq_some, Option.some.injEq, @eq_comm _ t]

/-- A program that fits, put at address 0, is read back from there, and the cells above it read as before. -/
theorem Memory.read_writeBytes_zero {m : Memory} {program : List Byte} (hwf : m.wf)
    (hfits : program.length ≤ Config.memSize) (a : Nat) :
    (m.writeBytes 0 program).read a = (program[a]?).getD (m.read a) := by
  rw [Memory.read_writeBytes program m 0 hwf a]
  split
  · rfl
  · next hout =>
    have hbeyond : program.length ≤ a := by omega
    rw [List.getElem?_eq_none hbeyond, Option.getD_none]

/-! ### Reset -/

/-- Every general register is 0 after reset (10_state.md R24). -/
theorem State.reset_getElem_x (r : Fin 8) : State.reset.x[r] = 0x00 :=
  (State.readReg_eq _ r).symm.trans (State.readReg_reset r)

/-- A load from reset writes nothing but memory, which then holds the program from address 0 upward and 0x00 elsewhere
(70_reset_and_hazards.md section 2). -/
theorem State.load_reset {program : List Byte} {t : State} (h : State.reset.load program = some t) :
    t = { State.reset with mem := t.mem } ∧ ∀ a, t.mem.read a = (program[a]?).getD 0x00 := by
  obtain ⟨hfits, rfl⟩ := State.load_eq_some_iff.1 h
  exact ⟨rfl, Memory.read_writeBytes_zero Memory.wf_nil hfits⟩

/-- Settles O21: the registers and the loaded memory have their laws, an empty memory reads as 0x00 everywhere, and each
other element is a field of the reset state. -/
theorem resetValues : Obligations.ResetValues :=
  ⟨State.reset_getElem_x, rfl, rfl, rfl, rfl, rfl, rfl, Memory.read_nil, rfl, fun _ _ => State.load_reset⟩

end Sys2Proof.Machine
end

section
/-! Proofs of the statements about the decoder and the encoder (30_encoding.md): an instruction is decoded exactly where its
encoding stands first, and what is missing or wrong elsewhere is named. -/

namespace Sys2Proof

/-- A list begins with an encoding iff its first byte is the opcode and the operand bytes follow it. -/
theorem encodeWith_prefix_iff {opc : OpcodeMap} {i : Instr} {bytes : List Byte} :
    encodeWith opc i <+: bytes ↔ listByte bytes 0 = .ok (opc i.mnemonic) ∧
      ∀ k (hk : k < i.operands.length), listByte bytes (k + 1) = .ok i.operands[k] := by
  simp only [encodeWith_eq, List.prefix_iff_getElem?, listByte_eq_ok_iff, List.length_cons]
  constructor
  · intro h
    exact ⟨h 0 (by omega), fun k hk => h (k + 1) (by omega)⟩
  · rintro ⟨hop, hoperands⟩ (_ | k) hk
    · exact hop
    · exact hoperands k (by omega)

/-- Settles O1: the encoding stands first, and the table knows its opcode byte. -/
theorem decodeOfEncode : Obligations.DecodeOfEncode := by
  intro opc hopc i rest
  obtain ⟨hop, hoperands⟩ := encodeWith_prefix_iff.1 (List.prefix_append (encodeWith opc i) rest)
  exact decodeFrom_ok_iff.2 ⟨_, hop, opcodeLookup_opc hopc _, hoperands⟩

/-- Settles O2: the decoder read the opcode and the operand bytes one by one, so the encoding stands first. -/
theorem encodeOfDecode : Obligations.EncodeOfDecode := by
  intro opc bytes i h
  obtain ⟨op, hop, hlookup, hoperands⟩ := decodeFrom_ok_iff.1 h
  obtain rfl := opcodeLookup_some hlookup
  have hprefix : encodeWith opc i <+: bytes := encodeWith_prefix_iff.2 ⟨hop, hoperands⟩
  rw [← length_encodeWith opc i]
  exact ⟨(List.prefix_iff_eq_take.1 hprefix).symm, hprefix.length_le⟩

/-- Settles O3: no byte and no opcode by the decoder's laws; with `rest` too short for the operands of `m`, the missing
one is the first when `rest` is empty and the second when it has one byte. -/
theorem decodeRejectsByName : Obligations.DecodeRejectsByName := by
  intro opc hopc
  refine ⟨decodeFrom_noByte rfl, fun op rest hop => ?_, fun m rest hshort => ?_⟩
  · exact decodeFrom_illegal rfl (opcodeLookup_eq_none_iff.2 hop)
  · rw [decodeWith, decodeFrom_known rfl (opcodeLookup_opc hopc m)]
    have hcount := m.operandCount_le
    match rest, hshort with
    | [], hshort => exact decodeOperands_missing1 hshort rfl
    | [b], hshort => exact decodeOperands_missing2 (le_antisymm hcount hshort) rfl rfl
    | _ :: _ :: _, hshort => simp only [List.length_cons] at hshort; omega

/-- Settles O4: each word is one list of bytes, which the decoder runs on. -/
theorem specWordsDecode : Obligations.SpecWordsDecode := ⟨rfl, rfl, rfl, rfl, rfl⟩

end Sys2Proof
end

section
/-! Proofs of the statements about the step and the decoder (40_dispatch_cycle.md): the machine's fetch is the decoder on the
bytes that stand at `pc`. -/

namespace Sys2Proof.Machine

/-! ### The fetch is the decoder on the bytes at pc -/

/-- The bytes of memory from `pc` upward, taken as a list, are those the fetch reads. -/
theorem fetchByte_of_listByte {s : State} {n k : Nat} {b : Byte} (hn : s.pc.toNat + n ≤ 256)
    (h : listByte (bytesAt s.mem s.pc.toNat n) k = .ok b) : s.fetchByte k = .ok b := by
  obtain ⟨hk, rfl⟩ := List.getElem?_eq_some_iff.1 (listByte_eq_ok_iff.1 h)
  have hkn : k < n := by simpa [bytesAt] using hk
  rw [s.fetchByte_of_le k (by omega)]
  simp [bytesAt]

theorem fetchInstr_of_decodeWith {opc : OpcodeMap} {s : State} {i : Instr} {n : Nat} (hn : s.pc.toNat + n ≤ 256)
    (h : decodeWith opc (bytesAt s.mem s.pc.toNat n) = .ok i) : fetchInstr opc s = .ok i := by
  obtain ⟨op, hop, hlookup, hoperands⟩ := decodeFrom_ok_iff.1 h
  exact decodeFrom_ok_iff.2 ⟨op, fetchByte_of_listByte hn hop, hlookup,
    fun k hk => fetchByte_of_listByte hn (hoperands k hk)⟩

/-- An instruction that was fetched lies in memory with all its bytes (40_dispatch_cycle.md R54, R56). -/
theorem pc_add_length_le_of_fetchInstr {opc : OpcodeMap} {s : State} {i : Instr} (h : fetchInstr opc s = .ok i) :
    s.pc.toNat + i.length ≤ 256 := by
  obtain ⟨op, hop, -, hoperands⟩ := decodeFrom_ok_iff.1 h
  have inside : ∀ {k b}, s.fetchByte k = .ok b → s.pc.toNat + k ≤ 255 := fun {k b} hk => by
    by_contra hgt
    cases (s.fetchByte_of_gt k (by omega)).symm.trans hk
  have hlen : i.length = i.operands.length + 1 := by rw [i.length_operands]; rfl
  rcases Nat.eq_zero_or_pos i.operands.length with hnone | hsome
  · have hpc := inside hop
    omega
  · have hlast := inside (hoperands (i.operands.length - 1) (by omega))
    omega

/-- Settles O5: the instruction the bytes decode to is the one fetched. -/
theorem stepRunsDecodedInstruction : Obligations.StepRunsDecodedInstruction :=
  ⟨fun _ _ _ _ hs hn h => stepWith_of_fetchInstr_ok hs (fetchInstr_of_decodeWith hn h),
    fun _ _ _ hs hn h => stepWith_of_fetchInstr_ok hs (fetchInstr_of_decodeWith hn h)⟩

/-! ### Placing bytes at pc -/

/-- Bytes written to cells that exist are read back there. -/
theorem bytesAt_writeBytes {m : Memory} {a : Nat} {bytes : List Byte} (hwf : m.wf) (hfits : a + bytes.length ≤ 256) :
    bytesAt (m.writeBytes a bytes) a bytes.length = bytes := by
  refine List.ext_getElem (by simp [bytesAt]) fun k hk hk' => ?_
  have hcell : a ≤ a + k ∧ a + k < Config.memSize := ⟨Nat.le_add_right _ _, by simp only [Config.memSize]; omega⟩
  simp [bytesAt, Memory.read_writeBytes bytes m a hwf, hcell, hk']

/-- Outside the cells written every cell reads as before. -/
theorem read_writeBytes_of_outside {m : Memory} {a c : Nat} {bytes : List Byte} (hwf : m.wf)
    (hc : c < a ∨ a + bytes.length ≤ c) : (m.writeBytes a bytes).read c = m.read c := by
  rw [Memory.read_writeBytes bytes m a hwf]
  split
  · rw [List.getElem?_eq_none (by omega), Option.getD_none]
  · rfl

theorem decode_of_decodeTableWord {nbits w : Nat} {i : Instr} (h : decodeTableWord nbits w = some i) :
    decode (tableBytes nbits w) = .ok i := by
  cases hd : decode (tableBytes nbits w) with
  | error e => simp [decodeTableWord, hd, Except.toOption] at h
  | ok j => simpa [decodeTableWord, hd, Except.toOption] using h

/-- Settles O6: the three bytes placed are those that stand at `pc`, so the instruction they decode to is the one run;
nothing else was written. -/
theorem placedTableWordIsRun : Obligations.PlacedTableWordIsRun := by
  intro s nbits w i hs hfits hwf hword
  refine ⟨?_, rfl, fun a ha => read_writeBytes_of_outside hwf ha⟩
  have hplaced : bytesAt (s.withFetchWord nbits w).mem s.pc.toNat 3 = tableBytes nbits w :=
    bytesAt_writeBytes (bytes := tableBytes nbits w) hwf hfits
  refine stepWith_of_fetchInstr_ok hs (fetchInstr_of_decodeWith (n := 3) hfits ?_)
  exact (congrArg decode hplaced).trans (decode_of_decodeTableWord hword)

end Sys2Proof.Machine
end

section
/-! Proofs of the statements about what each instruction changes and leaves unchanged, after one account of the fields the
execution of an instruction can write. -/

namespace Sys2Proof.Machine

/-! ### What an instruction can write -/

/-- The state `t` that the execution of `i` leaves, told by the fields of `s` that were written: the instructions that write
the same fields are one case, and an error is the last. -/
inductive Effect (s : State) (i : Instr) : State → Prop
  | register {p : Fin 8} (hi : i.mnemonic ∈ [Mnemonic.ldi, .mult, .add, .inc, .dec])
      (hp : i.operands.head? = some (regByte p)) (v : Byte) (n : Nat) : Effect s i ((s.writeReg p v).advance n)
  | output {r : Fin 8} (hi : i = .prn (regByte r)) : Effect s i ((s.emit (s.readReg r)).advance 2)
  | flags {v : Byte} (hi : i.mnemonic = .cmp) (hv : v = flagE ∨ v = flagL ∨ v = flagG) :
      Effect s i ((s.withFl v).advance 3)
  | pushed (hi : i.mnemonic ∈ [Mnemonic.push, .call]) (h₁ : 1 ≤ s.sp.toNat) (h₂ : s.sp.toNat ≤ 256) (v : Byte) (p : Ptr) :
      Effect s i (((s.withMem (s.mem.write (s.sp.toNat - 1) v)).withSp (s.sp - 1)).withPc p)
  | popped {r : Fin 8} (hi : i = .pop (regByte r)) (h : s.sp.toNat ≤ 255) (v : Byte) :
      Effect s i (((s.withSp (s.sp + 1)).writeReg r v).advance 2)
  | returned (hi : i = .ret) (h : s.sp.toNat ≤ 255) (p : Ptr) : Effect s i ((s.withSp (s.sp + 1)).withPc p)
  | jumped (hi : i.mnemonic ∈ [Mnemonic.jmp, .jeq, .jne]) (p : Ptr) : Effect s i (s.withPc p)
  | halted (hi : i = .hlt) : Effect s i ((s.withRunning false).advance 1)
  | raised {e : Err} (h : Raises s e i) : Effect s i (s.withErr (some e))

theorem Completes.effect {s t : State} {i : Instr} (h : Completes s t i) : Effect s i t := by
  cases i with
  | ldi b imm => obtain ⟨r, rfl, rfl⟩ := h; exact .register (by simp [Instr.mnemonic]) rfl _ _
  | inc b | dec b => obtain ⟨r, rfl, rfl⟩ := h; exact .register (by simp [Instr.mnemonic]) rfl _ _
  | mult a b | add a b => obtain ⟨p, q, rfl, rfl, rfl⟩ := h; exact .register (by simp [Instr.mnemonic]) rfl _ _
  | prn b => obtain ⟨r, rfl, rfl⟩ := h; exact .output rfl
  | cmp a b => obtain ⟨p, q, rfl, rfl, rfl⟩ := h; exact .flags rfl (compareFlags_cases _ _)
  | push b | call b => obtain ⟨r, rfl, h₁, h₂, rfl⟩ := h; exact .pushed (by simp [Instr.mnemonic]) h₁ h₂ _ _
  | pop b => obtain ⟨r, rfl, h₁, rfl⟩ := h; exact .popped rfl h₁ _
  | ret => obtain ⟨h₁, rfl⟩ := h; exact .returned rfl h₁ _
  | jmp b => obtain ⟨r, rfl, rfl⟩ := h; exact .jumped (by simp [Instr.mnemonic]) _
  | jeq b | jne b => obtain ⟨r, rfl, rfl⟩ := h; split <;> exact .jumped (by simp [Instr.mnemonic]) _
  | hlt => cases h; exact .halted rfl

theorem effect_of_exec {s t : State} {i : Instr} (h : exec i s = .next t) : Effect s i t := by
  obtain hc | ⟨e, rfl, hr⟩ := exec_next_cases h
  · exact hc.effect
  · exact .raised hr

/-! ### Registers, output, `running` -/

theorem eq_of_getElem_set_ne {x : Vector Byte 8} {p r : Fin 8} {v : Byte} (h : (x.set p v)[r] ≠ x[r]) : p = r := by
  by_contra hpr
  exact h (Vector.getElem_set_ne _ _ (by omega))

/-- Settles O47: only the register of a `writeReg` can differ, and it is the one the first operand byte names. -/
theorem onlyDestinationRegistersChange : Obligations.OnlyDestinationRegistersChange := by
  intro i s t r h hr
  cases effect_of_exec h with
  | register hi hp =>
    obtain rfl := eq_of_getElem_set_ne hr
    exact ⟨by simp at hi ⊢; tauto, hp⟩
  | popped hi =>
    obtain rfl := eq_of_getElem_set_ne hr
    subst hi
    exact ⟨by simp [Instr.mnemonic], rfl⟩
  | output | flags | pushed | returned | jumped | halted | raised => exact absurd rfl hr

/-- Settles O50: of all effects only that of PRN has an `emit`. -/
theorem onlyPrnChangesOutput : Obligations.OnlyPrnChangesOutput := by
  intro i s t h
  cases effect_of_exec h with
  | output hi => exact .inr ⟨_, hi, rfl⟩
  | register | flags | pushed | popped | returned | jumped | halted | raised => exact .inl rfl

/-- Settles O53: of all effects only that of HLT writes `running`. -/
theorem onlyHltClearsRunning : Obligations.OnlyHltClearsRunning := by
  intro i s t h
  by_cases hi : i = .hlt
  · subst hi
    cases (exec_hlt s).symm.trans h
    rfl
  · rw [if_neg hi]
    cases effect_of_exec h with
    | halted hhlt => exact absurd hhlt hi
    | register | output | flags | pushed | popped | returned | jumped | raised => rfl

/-! ### Memory and the stack pointer -/

/-- Memory is as before, or a push wrote the cell below `sp`. -/
theorem exec_mem_eq_or_write {s t : State} {i : Instr} (h : exec i s = .next t) :
    t.mem = s.mem ∨ i.mnemonic ∈ [Mnemonic.push, .call] ∧ 1 ≤ s.sp.toNat ∧ s.sp.toNat ≤ 256 ∧
      ∃ v, t.mem = s.mem.write (s.sp.toNat - 1) v := by
  cases effect_of_exec h with
  | pushed hi h₁ h₂ v => exact .inr ⟨hi, h₁, h₂, v, rfl⟩
  | register | output | flags | popped | returned | jumped | halted | raised => exact .inl rfl

/-- Settles O51: where memory was written it was the cell `sp - 1`, by PUSH or CALL, and that address is in 0..255. -/
theorem onlyPushAndCallStore : Obligations.OnlyPushAndCallStore := by
  intro i s t hwf h
  obtain hmem | ⟨hi, h₁, h₂, v, hmem⟩ := exec_mem_eq_or_write h
  · simp [hmem]
  · have hread := fun b => Memory.read_write s.mem (s.sp.toNat - 1) v hwf b
    simp only [List.mem_cons, List.not_mem_nil, or_false] at hi
    refine ⟨fun hpush hcall => absurd hi (by tauto), fun a ha b hb => ?_, fun hout => ?_⟩
    · simp only [State.pushAddr] at ha
      rw [hmem, hread, if_neg (by omega)]
    · simp only [State.pushAddr] at hout
      omega

/-- The stack pointer is as before, or one lower by PUSH or CALL from 1..256, or one higher by POP or RET from 0..255. -/
theorem exec_sp_cases {s t : State} {i : Instr} (h : exec i s = .next t) :
    t.sp = s.sp ∨
    (i.mnemonic ∈ [Mnemonic.push, .call] ∧ s.sp.toNat ≤ 256 ∧ t.sp.toNat + 1 = s.sp.toNat) ∨
    (i.mnemonic ∈ [Mnemonic.pop, .ret] ∧ s.sp.toNat ≤ 255 ∧ t.sp.toNat = s.sp.toNat + 1) := by
  cases effect_of_exec h with
  | pushed hi h₁ h₂ =>
    have hsp := toNat_pred s.sp h₁
    exact .inr (.inl ⟨hi, h₂, by simp only [State.withPc_sp, State.withSp_sp]; omega⟩)
  | popped hi hsp =>
    subst hi
    exact .inr (.inr ⟨by simp [Instr.mnemonic], hsp, toNat_add_of_lt s.sp 1 (by omega)⟩)
  | returned hi hsp =>
    subst hi
    exact .inr (.inr ⟨by decide, hsp, toNat_add_of_lt s.sp 1 (by omega)⟩)
  | register | output | flags | jumped | halted | raised => exact .inl rfl

/-- Settles O52: the three cases of what happens to `sp`. -/
theorem onlyStackInstructionsMoveSp : Obligations.OnlyStackInstructionsMoveSp := by
  intro i s t h
  obtain hsp | ⟨hi, -, hsp⟩ | ⟨hi, -, hsp⟩ := exec_sp_cases h
  · exact .inl hsp
  · exact .inr (.inl ⟨hi, hsp⟩)
  · exact .inr (.inr ⟨hi, hsp⟩)

/-! ### Flags -/

/-- Settles O48: an instruction other than CMP has no effect on `fl`; a well-formed CMP raises nothing, having no stack
address, so it leaves the flag of its comparison. -/
theorem onlyCmpChangesFlags : Obligations.OnlyCmpChangesFlags := by
  intro i s t h
  refine ⟨fun hi => exec_fl_eq hi h, fun hi _ hwf => ?_⟩
  obtain hc | ⟨e, -, hr⟩ := exec_next_cases h
  · cases i with
    | cmp a b =>
      obtain ⟨p, q, -, -, rfl⟩ := hc
      exact compareFlags_cases _ _
    | _ => cases hi
  · have hstack := hr.stackError_eq_some hwf
    rw [hi] at hstack
    cases hstack

/-- The other direction of `exec_next_cases`: with its checks met an instruction leaves this state and no other. -/
theorem Completes.exec_eq {s t : State} {i : Instr} (h : Completes s t i) : exec i s = .next t := by
  cases i with
  | ldi b imm => obtain ⟨r, rfl, rfl⟩ := h; exact exec_ldi_regByte r imm s
  | prn b => obtain ⟨r, rfl, rfl⟩ := h; exact exec_prn_regByte r s
  | mult a b => obtain ⟨p, q, rfl, rfl, rfl⟩ := h; exact exec_mult_regByte p q s
  | add a b => obtain ⟨p, q, rfl, rfl, rfl⟩ := h; exact exec_add_regByte p q s
  | inc b => obtain ⟨r, rfl, rfl⟩ := h; exact exec_inc_regByte r s
  | dec b => obtain ⟨r, rfl, rfl⟩ := h; exact exec_dec_regByte r s
  | push b => obtain ⟨r, rfl, h₁, h₂, rfl⟩ := h; rw [exec_push_of_room h₁ h₂, ptr_pred_eq h₁]
  | pop b => obtain ⟨r, rfl, h₁, rfl⟩ := h; rw [exec_pop_of_inside h₁, ptr_succ_eq]
  | call b => obtain ⟨r, rfl, h₁, h₂, rfl⟩ := h; rw [exec_call_regByte, pushByte_ok s _ h₁ h₂]; rfl
  | ret => obtain ⟨h₁, rfl⟩ := h; rw [exec_ret_of_inside h₁, ptr_succ_eq, zext9_add_two_eq]
  | cmp a b => obtain ⟨p, q, rfl, rfl, rfl⟩ := h; exact exec_cmp_regByte p q s
  | jmp b => obtain ⟨r, rfl, rfl⟩ := h; rw [exec_jmp_regByte, State.jumpTo_eq]
  | jeq b => obtain ⟨r, rfl, rfl⟩ := h; exact exec_jeq_regByte r s
  | jne b => obtain ⟨r, rfl, rfl⟩ := h; exact exec_jne_regByte r s
  | hlt => cases h; exact exec_hlt s

/-- The error of a bad register byte depends on nothing of the state but `pc` (60_exceptions.md R86). -/
theorem exec_of_not_wellFormed {i : Instr} (h : ¬ i.wellFormed = true) :
    ∃ b k, ∀ s : State, exec i s = .next (s.withErr (some (.registerIndexError b (s.pc.toNat + k)))) := by
  have hcount : i.regOperands.length ≤ 2 := by cases i <;> simp [Instr.regOperands]
  simp only [Instr.wellFormed, List.all_eq_true, namesReg_iff_lt, not_forall, not_lt] at h
  obtain ⟨b, hb, hbad⟩ := h
  match hreg : i.regOperands with
  | [] => simp [hreg] at hb
  | [a] =>
    obtain rfl : b = a := by simpa [hreg] using hb
    exact ⟨b, 1, exec_of_first_register_ge hreg hbad⟩
  | [a, c] =>
    by_cases ha : 8 ≤ a.toNat
    · exact ⟨a, 1, exec_of_first_register_ge hreg ha⟩
    · obtain rfl | rfl : b = a ∨ b = c := by simpa [hreg] using hb
      · exact absurd hbad ha
      · exact ⟨b, 2, exec_of_first_lt_second_ge hreg (by omega) hbad⟩
  | _ :: _ :: _ :: _ => simp [hreg] at hcount

/-- Apart from CMP, an instruction that completes sees of `fl` at most bit 0, and only JEQ and JNE see that. -/
theorem Completes.withFl {s t : State} {i : Instr} {v : Byte} (h : Completes s t i) (hcmp : i.mnemonic ≠ .cmp)
    (hbit : i.mnemonic ∈ [Mnemonic.jeq, .jne] → (s.withFl v).equalFlag = s.equalFlag) :
    Completes (s.withFl v) (t.withFl v) i := by
  cases i with
  | cmp a b => exact absurd rfl hcmp
  | jeq b | jne b =>
    obtain ⟨r, rfl, rfl⟩ := h
    refine ⟨r, rfl, ?_⟩
    rw [hbit (by simp [Instr.mnemonic])]
    split <;> rfl
  | mult a b | add a b => obtain ⟨p, q, rfl, rfl, rfl⟩ := h; exact ⟨p, q, rfl, rfl, rfl⟩
  | ldi b imm => obtain ⟨r, rfl, rfl⟩ := h; exact ⟨r, rfl, rfl⟩
  | prn b | inc b | dec b | jmp b => obtain ⟨r, rfl, rfl⟩ := h; exact ⟨r, rfl, rfl⟩
  | push b | call b => obtain ⟨r, rfl, h₁, h₂, rfl⟩ := h; exact ⟨r, rfl, h₁, h₂, rfl⟩
  | pop b => obtain ⟨r, rfl, h₁, rfl⟩ := h; exact ⟨r, rfl, h₁, rfl⟩
  | ret => obtain ⟨h₁, rfl⟩ := h; exact ⟨h₁, rfl⟩
  | hlt => cases h; rfl

/-- So with another `fl` it does the same and keeps that `fl`: it completes alike, or raises the same error. -/
theorem exec_withFl {s t : State} {i : Instr} {v : Byte} (hcmp : i.mnemonic ≠ .cmp)
    (hbit : i.mnemonic ∈ [Mnemonic.jeq, .jne] → (s.withFl v).equalFlag = s.equalFlag) (h : exec i s = .next t) :
    exec i (s.withFl v) = .next (t.withFl v) := by
  by_cases hwf : i.wellFormed = true
  · obtain hc | ⟨e, rfl, hr⟩ := exec_next_cases h
    · exact (hc.withFl hcmp hbit).exec_eq
    · have hanswers := exec_answers_stackError hwf (s.withFl v)
      rwa [State.withFl_sp, hr.stackError_eq_some hwf] at hanswers
  · obtain ⟨b, k, hraise⟩ := exec_of_not_wellFormed hwf
    cases (hraise s).symm.trans h
    exact hraise (s.withFl v)

/-- Settles O49: any instruction but CMP keeps the other `fl`, where bit 0 is as before or the instruction is no conditional
jump; CMP overwrites it, or raises the same error. -/
theorem flagsReachOnlyTheConditionalJumps : Obligations.FlagsReachOnlyTheConditionalJumps := by
  refine ⟨fun i s t v hjeq hjne h => ?_, fun i s t v hcmp hbit h => exec_withFl hcmp (fun _ => hbit) h⟩
  cases i with
  | cmp a b =>
    obtain ⟨p, q, rfl, rfl, h'⟩ | ⟨ha, h'⟩ | ⟨p, rfl, hb, h'⟩ := execCmp_cases s a b
    all_goals cases h'.symm.trans h
    · exact ⟨_, exec_cmp_regByte p q (s.withFl v)⟩
    · exact ⟨v, exec_of_first_register_ge rfl ha (s.withFl v)⟩
    · exact ⟨v, exec_of_second_register_ge rfl hb (s.withFl v)⟩
  | _ => exact ⟨v, exec_withFl (by simp [Instr.mnemonic]) (by simp_all [Instr.mnemonic]) h⟩

end Sys2Proof.Machine
end

section
/-! Proofs of the statements about where `pc` is after an instruction (10_state.md section 2) and about the invariant of every
reachable state (10_state.md section 7), which every instruction and every step keeps. -/

namespace Sys2Proof.Machine

/-! ### Where pc is after an instruction that completes -/

/-- Where `pc` of `t` is when the instruction completed from `s` (10_state.md section 2). -/
def PcAfter (s t : State) : Instr → Prop
  | .ldi _ _ | .mult _ _ | .add _ _ | .cmp _ _ => t.pc.toNat = s.pc.toNat + 3
  | .prn _ | .inc _ | .dec _ | .push _ | .pop _ => t.pc.toNat = s.pc.toNat + 2
  | .hlt => t.pc.toNat = s.pc.toNat + 1
  | .jmp b | .call b => ∃ r : Fin 8, b = regByte r ∧ t.pc.toNat = s.x[r].toNat
  | .jeq b => ∃ r : Fin 8, b = regByte r ∧ t.pc.toNat = if s.fl.getLsbD 0 then s.x[r].toNat else s.pc.toNat + 2
  | .jne b => ∃ r : Fin 8, b = regByte r ∧ t.pc.toNat = if s.fl.getLsbD 0 then s.pc.toNat + 2 else s.x[r].toNat
  | .ret => t.pc.toNat = (s.mem.read s.sp.toNat).toNat + 2

/-- Below the top of memory `pc` moves on without a wrap. -/
theorem toNat_pc_add {s : State} {n : Nat} (h : s.pc.toNat + n ≤ 256) :
    (s.pc + BitVec.ofNat 9 n).toNat = s.pc.toNat + n := toNat_add_of_lt s.pc n (by omega)

theorem toNat_zext9_add_two (v : Byte) : (zext9 v + 2).toNat = v.toNat + 2 := by
  have hv := toNat_zext9 v
  rw [← hv]
  exact toNat_add_of_lt (zext9 v) 2 (by omega)

theorem Completes.pcAfter {s t : State} {i : Instr} (h : Completes s t i) (hpc : s.pc.toNat + i.length ≤ 256) :
    PcAfter s t i := by
  cases i with
  | mult a b | add a b | cmp a b => obtain ⟨p, q, -, -, rfl⟩ := h; exact toNat_pc_add hpc
  | ldi b imm => obtain ⟨r, -, rfl⟩ := h; exact toNat_pc_add hpc
  | prn b | inc b | dec b => obtain ⟨r, -, rfl⟩ := h; exact toNat_pc_add hpc
  | push b => obtain ⟨r, -, -, -, rfl⟩ := h; exact toNat_pc_add hpc
  | pop b => obtain ⟨r, -, -, rfl⟩ := h; exact toNat_pc_add hpc
  | call b => obtain ⟨r, hb, -, -, rfl⟩ := h; exact ⟨r, hb, toNat_zext9 _⟩
  | jmp b => obtain ⟨r, hb, rfl⟩ := h; exact ⟨r, hb, toNat_zext9 _⟩
  | jeq b | jne b =>
    obtain ⟨r, hb, rfl⟩ := h
    have htaken : (s.jumpTo r).pc.toNat = s.x[r].toNat := toNat_zext9 _
    have hnext : (s.advance 2).pc.toNat = s.pc.toNat + 2 := toNat_pc_add hpc
    exact ⟨r, hb, by rw [apply_ite State.pc, apply_ite BitVec.toNat, htaken, hnext]; rfl⟩
  | ret => obtain ⟨-, rfl⟩ := h; exact toNat_zext9_add_two _
  | hlt => cases h; exact toNat_pc_add hpc

/-- Settles O54: an instruction that changes `err` changes nothing else; one that completes leaves `pc` where it should be. -/
theorem pcAfterEachInstruction : Obligations.PcAfterEachInstruction := by
  intro i s t hpc h
  refine ⟨fun herr => ?_, fun _ hnone => ?_⟩
  · obtain heq | ⟨e, rfl⟩ := exec_err_eq_or_withErr h
    · exact absurd heq herr
    · rfl
  · obtain hc | ⟨e, rfl, -⟩ := exec_next_cases h
    · exact hc.pcAfter hpc
    · cases hnone

/-! ### The invariant -/

/-- The furthest `pc` gets: past the last cell by a step forward, or two past a saved 255 by RET (10_state.md section 7). -/
theorem PcAfter.toNat_le {s t : State} {i : Instr} (h : PcAfter s t i) (hpc : s.pc.toNat + i.length ≤ 256) :
    t.pc.toNat ≤ 257 := by
  have byte_le (v : Byte) : v.toNat ≤ 255 := Nat.le_of_lt_succ v.isLt
  have hle : ∀ {n}, t.pc.toNat = s.pc.toNat + n → s.pc.toNat + n ≤ 256 → t.pc.toNat ≤ 257 := by omega
  cases i with
  | mult a b | add a b | cmp a b => exact hle h hpc
  | ldi b imm => exact hle h hpc
  | prn b | inc b | dec b | push b | pop b => exact hle h hpc
  | hlt => exact hle h hpc
  | jmp b | call b =>
    obtain ⟨r, -, hpc'⟩ := h
    have := byte_le s.x[r]
    omega
  | jeq b | jne b =>
    obtain ⟨r, -, hpc'⟩ := h
    have := byte_le s.x[r]
    have hnext : s.pc.toNat + 2 ≤ 256 := hpc
    split at hpc' <;> omega
  | ret =>
    have hpc' : t.pc.toNat = (s.mem.read s.sp.toNat).toNat + 2 := h
    have := byte_le (s.mem.read s.sp.toNat)
    omega

theorem inv_withErr {s : State} (hs : s.Inv) (e : Option Err) : (s.withErr e).Inv :=
  ⟨hs.pc_le, hs.sp_le, hs.fl_legal, hs.mem_wf⟩

/-- An instruction whose bytes all lie in memory keeps the invariant. -/
theorem inv_of_exec {s t : State} {i : Instr} (hs : s.Inv) (hpc : s.pc.toNat + i.length ≤ 256)
    (h : exec i s = .next t) : t.Inv := by
  obtain hc | ⟨e, rfl, -⟩ := exec_next_cases h
  case inr => exact inv_withErr hs _
  refine ⟨(hc.pcAfter hpc).toNat_le hpc, ?sp, ?fl, ?mem⟩
  case sp =>
    have hsp := hs.sp_le
    obtain heq | ⟨-, -, hsp'⟩ | ⟨-, hlow, hsp'⟩ := exec_sp_cases h
    · rwa [heq]
    · omega
    · omega
  case fl =>
    by_cases hcmp : i.mnemonic = .cmp
    · cases i with
      | cmp a b => obtain ⟨p, q, -, -, rfl⟩ := hc; exact .inr (compareFlags_cases _ _)
      | _ => cases hcmp
    · rw [exec_fl_eq hcmp h]
      exact hs.fl_legal
  case mem =>
    obtain heq | ⟨-, h₁, h₂, v, hmem⟩ := exec_mem_eq_or_write h
    · rw [heq]
      exact hs.mem_wf
    · rw [hmem]
      exact Memory.write_wf _ _ v hs.mem_wf (by simp only [Config.memSize]; omega)

/-- Settles O18: a step does nothing, records an error, or executes an instruction that was fetched from inside memory. -/
theorem stepKeepsTheInvariant : Obligations.StepKeepsTheInvariant := by
  intro opc s t hs h
  obtain ⟨-, hstep⟩ | ⟨-, i, hi, hstep⟩ | ⟨-, e, -, hstep⟩ := stepWith_cases opc s
  · cases hstep.symm.trans h
    exact hs
  · exact inv_of_exec hs (pc_add_length_le_of_fetchInstr hi) (hstep.symm.trans h)
  · cases hstep.symm.trans h
    exact inv_withErr hs _

/-- Settles O19: each part is about one field of the reset state. -/
theorem resetMeetsTheInvariant : Obligations.ResetMeetsTheInvariant :=
  ⟨by decide, by decide, .inl rfl, Memory.wf_nil⟩

/-! ### Totality -/

/-- Settles O14: an instruction completes or raises, a step does one of its three things, and an outcome is one state. -/
theorem stepIsTotal : Obligations.StepIsTotal := by
  have total : ∀ (i : Instr) (s : State), ∃ t, exec i s = .next t := fun i s => by
    obtain ⟨t, ht, -⟩ | ⟨e, he, -⟩ := exec_cases s i
    · exact ⟨t, ht⟩
    · exact ⟨_, he⟩
  refine ⟨total, fun opc s => ?_⟩
  have hstep : ∃ t, stepWith opc s = .next t := by
    obtain ⟨-, hstep⟩ | ⟨-, i, -, hstep⟩ | ⟨-, e, -, hstep⟩ := stepWith_cases opc s
    · exact ⟨s, hstep⟩
    · rw [hstep]
      exact total i s
    · exact ⟨_, hstep⟩
  obtain ⟨t, ht⟩ := hstep
  exact ⟨t, ht, fun u hu => by simpa using hu.symm.trans ht⟩

/-! ### Errors a step can record -/

/-- After the step of an ACTIVE machine `err` is the first error of the list, or none (60_exceptions.md R90). -/
theorem err_eq_firstError {opc : OpcodeMap} {s t : State} (hs : s.status = .active) (h : stepWith opc s = .next t) :
    t.err = firstError opc s := by
  have hanswers := stepWith_answers_firstError (opc := opc) hs
  cases hfirst : firstError opc s with
  | none =>
    rw [hfirst] at hanswers
    obtain ⟨u, hu, herr⟩ := hanswers
    cases hu.symm.trans h
    exact herr.trans (s.status_active_iff.1 hs).1
  | some e =>
    rw [hfirst] at hanswers
    cases Eq.trans (Eq.symm hanswers) h
    rfl

/-- What a step from `s` may record (60_exceptions.md section 1): never InvalidALUOperation, and of addresses, within the
ranges of `pc` and `sp`, only the three next to memory. -/
def Err.InRange (s : State) : Err → Prop
  | .addressError a => s.pc.toNat ≤ 257 → s.sp.toNat ≤ 256 → a = -1 ∨ a = 256 ∨ a = 257
  | .invalidALUOperation => False
  | .invalidOpcode _ _ | .registerIndexError _ _ => True

theorem stackError_inRange {m : Mnemonic} {s : State} {e : Err} (h : stackError m s.sp = some e) : e.InRange s := by
  cases m with
  | push | call | pop | ret =>
    obtain ⟨hout, ⟨⟩⟩ := Option.ite_none_right_eq_some.1 h
    exact fun _ hsp => by omega
  | _ => cases h

/-- Each error of the list of 60_exceptions.md R90 is in range, the address errors because nothing but the next cell above
memory, or `pc` itself, is fetched from. -/
theorem firstError_inRange {opc : OpcodeMap} {s : State} {e : Err} (h : firstError opc s = some e) : e.InRange s := by
  simp only [firstError] at h
  split at h
  · cases h; exact fun hpc _ => by omega
  split at h
  · cases h; trivial
  split at h
  · cases h; exact fun _ _ => by omega
  split at h
  · cases h; exact fun _ _ => by omega
  split at h
  · cases h; trivial
  split at h
  · cases h; trivial
  exact stackError_inRange h

/-- Settles O16: the ALU by its definition; an ACTIVE machine records what `firstError` gives, any other keeps its `err`. -/
theorem invalidALUOperationIsNeverRaised : Obligations.InvalidALUOperationIsNeverRaised := by
  refine ⟨fun m a b hm => ?_, fun opc s t h herr => ?_⟩
  · cases m with
    | add | mult | inc | dec | cmp => simp at hm
    | _ => rfl
  · by_cases hs : s.status = .active
    · rw [err_eq_firstError hs h] at herr
      exact (firstError_inRange herr).elim
    · cases (stepWith_of_not_active hs).symm.trans h
      exact herr

/-- Settles O17: the machine that records it had no error before and is ACTIVE, for it has changed. -/
theorem addressErrorRecordsOnlyThreeAddresses : Obligations.AddressErrorRecordsOnlyThreeAddresses := by
  intro opc s t a hinv hnone h herr
  by_cases hs : s.status = .active
  · rw [err_eq_firstError hs h] at herr
    exact firstError_inRange herr hinv.pc_le hinv.sp_le
  · cases (stepWith_of_not_active hs).symm.trans h
    cases hnone.symm.trans herr

end Sys2Proof.Machine
end

section
/-! Proofs of the statements about runs (10_state.md sections 5, 7, 8; 70_reset_and_hazards.md section 2). -/

namespace Sys2Proof.Machine

/-! ### The host's run -/

/-- What holds of the first state of a run and is kept by every step holds of every state the run reaches. -/
theorem core_run_keeps {P : State → Prop} (hstep : ∀ s t, P s → step s = .next t → P t) (n : Nat) {s t : State}
    (hs : P s) (h : Sys2Proof.core.run n s = .next t) : P t := by
  induction n generalizing s with
  | zero =>
    cases (core_run_zero s).symm.trans h
    exact hs
  | succ n ih =>
    obtain ⟨u, hu, -⟩ := stepIsTotal.2 defaultOpcode s
    exact ih (hstep s u hs hu) ((core_run_succ n s u hu).symm.trans h)

theorem core_run_of_not_active {s : State} (hs : s.status ≠ .active) (n : Nat) : Sys2Proof.core.run n s = .next s := by
  induction n with
  | zero => exact core_run_zero s
  | succ n ih => exact (core_run_succ n s s (stepWith_of_not_active hs)).trans ih

/-- Settles O15: one step by the law of the step, any number by induction. -/
theorem inactiveMachineNeverChanges : Obligations.InactiveMachineNeverChanges :=
  ⟨fun _ _ => stepWith_of_not_active, fun n _ hs => core_run_of_not_active hs n⟩

/-! ### Runs of loaded programs -/

/-- Settles O22: the load succeeds iff the program fits, and from reset it leaves the image and nothing else. -/
theorem loadPlacesTheImage : Obligations.LoadPlacesTheImage := by
  refine fun program => ⟨fun hfits => ?_, fun hlong => if_neg (Nat.not_le_of_gt hlong)⟩
  have hload := (State.load_eq_some_iff (s := State.reset)).2 ⟨hfits, rfl⟩
  exact ⟨_, hload, State.load_reset hload⟩

theorem inv_of_load {program : List Byte} {s : State} (h : State.reset.load program = some s) : s.Inv := by
  obtain ⟨-, rfl⟩ := State.load_eq_some_iff.1 h
  obtain ⟨hpc, hsp, hfl, hmem⟩ := resetMeetsTheInvariant
  exact ⟨hpc, hsp, hfl, Memory.writeBytes_wf program _ 0 hmem⟩

/-- Settles O20: the invariant holds after the load and is kept along the run; a state that is not running or has an error is
not ACTIVE, so no step changes it. -/
theorem everyRunOfALoadedProgramIsLegal : Obligations.EveryRunOfALoadedProgramIsLegal := by
  intro program s t n hload hrun
  refine ⟨core_run_keeps (stepKeepsTheInvariant defaultOpcode) n (inv_of_load hload) hrun, fun hchange => ?_,
    fun hended => core_run_of_not_active ?_⟩
  · by_contra herr
    exact hchange (stepWith_of_not_active fun hs => herr (t.status_active_iff.1 hs).1)
  · rw [ne_eq, t.status_active_iff]
    rcases hended with hrunning | herr
    · simp [hrunning]
    · exact fun h => herr h.1

/-! ### The run with fuel -/

theorem runWith_succ_of_active {opc : OpcodeMap} {s u : State} (hs : s.status = .active)
    (hu : stepWith opc s = .next u) (n : Nat) : runWith opc (n + 1) s = runWith opc n u := by
  rw [runWith, hs]
  simp only [hu]

/-- Induction along a run that returns `t`: it ended at once, at `t`, or took a first step and went on from there with less
fuel. -/
theorem runWith_induction {opc : OpcodeMap} {t : State} {motive : Nat → State → Prop}
    (ended : ∀ n, t.status ≠ .active → motive n t)
    (stepped : ∀ n s u, s.status = .active → stepWith opc s = .next u → motive n u → motive (n + 1) s)
    {n : Nat} {s : State} (h : runWith opc n s = some t) : motive n s := by
  induction n generalizing s with
  | zero =>
    by_cases hs : s.status = .active
    · simp [runWith, hs] at h
    · cases (runWith_of_not_active hs opc 0).symm.trans h
      exact ended 0 hs
  | succ n ih =>
    by_cases hs : s.status = .active
    · obtain ⟨u, hu, -⟩ := stepIsTotal.2 opc s
      exact stepped n s u hs hu (ih ((runWith_succ_of_active hs hu n).symm.trans h))
    · cases (runWith_of_not_active hs opc (n + 1)).symm.trans h
      exact ended (n + 1) hs

theorem runWith_status {opc : OpcodeMap} {n : Nat} {s t : State} (h : runWith opc n s = some t) :
    t.status ≠ .active :=
  runWith_induction (motive := fun _ _ => t.status ≠ .active) (fun _ ht => ht) (fun _ _ _ _ _ ht => ht) h

/-- More fuel changes nothing. -/
theorem runWith_of_le {opc : OpcodeMap} {n : Nat} {s t : State} (h : runWith opc n s = some t) :
    ∀ m, n ≤ m → runWith opc m s = some t := by
  refine runWith_induction (motive := fun n s => ∀ m, n ≤ m → runWith opc m s = some t) (fun n ht m _ => ?_)
    (fun n s u hs hu ih m hm => ?_) h
  · exact runWith_of_not_active ht opc m
  · obtain ⟨j, rfl⟩ : ∃ j, m = j + 1 := ⟨m - 1, by omega⟩
    exact (runWith_succ_of_active hs hu j).trans (ih j (by omega))

/-- A run that returns is so many steps of the host's core. -/
theorem core_run_of_run {n : Nat} {s t : State} (h : run n s = some t) :
    ∃ k, k ≤ n ∧ Sys2Proof.core.run k s = .next t := by
  refine runWith_induction (motive := fun n s => ∃ k, k ≤ n ∧ Sys2Proof.core.run k s = .next t) (fun n _ => ?_)
    (fun n s u _ hu ih => ?_) h
  · exact ⟨0, Nat.zero_le n, core_run_zero t⟩
  · obtain ⟨k, hk, hrun⟩ := ih
    exact ⟨k + 1, by omega, (core_run_succ k s u hu).trans hrun⟩

/-- Settles O46: each part by induction along the run. -/
theorem runReturnsOnlyAtAnEnd : Obligations.RunReturnsOnlyAtAnEnd :=
  ⟨fun _ _ _ _ h => ⟨runWith_status h, runWith_of_le h⟩, fun _ _ _ h => core_run_of_run h⟩

end Sys2Proof.Machine
end

section
/-! Proofs of the statements about instructions in a row: PUSH and POP (43_stack.md), CALL and RET (44_control_flow.md R79),
and a PUSH over the next instruction (20_memory.md R38). -/

namespace Sys2Proof.Machine

theorem toNat_ofNat_ptr {n : Nat} (h : n ≤ 256) : (BitVec.ofNat 9 n).toNat = n := by
  rw [BitVec.toNat_ofNat, Nat.mod_eq_of_lt (by omega)]

/-- Lowering a pointer by one and raising it again gives it back. -/
theorem ptr_ofNat_pred_add_one {p : Ptr} (h : 1 ≤ p.toNat) : BitVec.ofNat 9 (p.toNat - 1 + 1) = p := by
  rw [Nat.sub_add_cancel h, BitVec.ofNat_toNat, BitVec.setWidth_eq]

/-! ### PUSH and POP -/

/-- The state a PUSH leaves where it has room (43_stack.md R71). -/
def afterPush (r : Fin 8) (s : State) : State :=
  ((s.withMem (s.mem.write (s.sp.toNat - 1) (s.readReg r))).withSp (BitVec.ofNat 9 (s.sp.toNat - 1))).advance 2

section Push

variable {s : State} (r : Fin 8)

theorem exec_push_eq_afterPush (h₁ : 1 ≤ s.sp.toNat) (h₂ : s.sp.toNat ≤ 256) :
    exec (.push (regByte r)) s = .next (afterPush r s) := exec_push_of_room h₁ h₂ r

theorem afterPush_sp_toNat (h₂ : s.sp.toNat ≤ 256) : (afterPush r s).sp.toNat = s.sp.toNat - 1 :=
  toNat_ofNat_ptr (by omega)

theorem afterPush_read (hwf : s.mem.wf) (c : Nat) :
    (afterPush r s).mem.read c = if s.sp.toNat - 1 = c then s.x[r] else s.mem.read c :=
  Memory.read_write _ _ _ hwf c

theorem afterPush_read_pushed (hwf : s.mem.wf) : (afterPush r s).mem.read (s.sp.toNat - 1) = s.x[r] := by
  rw [afterPush_read r hwf, if_pos rfl]

theorem afterPush_read_of_ne (hwf : s.mem.wf) {c : Nat} (hc : c ≠ s.sp.toNat - 1) :
    (afterPush r s).mem.read c = s.mem.read c := by
  rw [afterPush_read r hwf, if_neg hc.symm]

theorem afterPush_mem_wf (hwf : s.mem.wf) (h₂ : s.sp.toNat ≤ 256) : (afterPush r s).mem.wf :=
  Memory.write_wf _ _ _ hwf (by simp only [Config.memSize]; omega)

end Push

/-- Settles O42: the POP reads the cell the PUSH wrote, and raises `sp` to where it was. -/
theorem pushThenPopRestores : Obligations.PushThenPopRestores := by
  intro a b s hwf h₁ h₂
  have hsp := afterPush_sp_toNat a h₂
  refine ⟨_, _, exec_push_eq_afterPush a h₁ h₂, exec_pop_of_inside (by omega) b, ?_, ?_,
    afterPush_read_pushed a hwf, fun c hc => afterPush_read_of_ne a hwf hc, ?_⟩
  · rw [hsp, afterPush_read_pushed a hwf]
    rfl
  · rw [hsp, ptr_ofNat_pred_add_one h₁]
    rfl
  · rw [hsp, ptr_ofNat_pred_add_one h₁]
    exact congrArg (State.withPc _) (BitVec.add_assoc s.pc 2 2)

/-- Settles O43: by induction on the list: the first PUSH writes the cell below `sp`, and the others only cells below that. -/
theorem pushManyFillsDownward : Obligations.PushManyFillsDownward := by
  intro rs
  induction rs with
  | nil => exact fun s _ _ _ => ⟨s, rfl, rfl, fun k hk => by simp at hk, fun _ _ => rfl, rfl⟩
  | cons r rs ih =>
    intro s hwf hroom hsp
    rw [List.length_cons] at hroom
    have hsp' := afterPush_sp_toNat r hsp
    obtain ⟨t, hexec, htsp, hfilled, hframe, ht⟩ :=
      ih (afterPush r s) (afterPush_mem_wf r hwf hsp) (by omega) (by omega)
    rw [hsp'] at htsp hfilled hframe
    refine ⟨t, ?_, by rw [htsp, List.length_cons]; omega, fun k hk => ?_, fun c hc => ?_, ht⟩
    · rw [List.map_cons, execAll, exec_push_eq_afterPush r (by omega) hsp]
      exact hexec
    · cases k with
      | zero =>
        rw [hframe _ (by omega)]
        exact afterPush_read_pushed r hwf
      | succ k =>
        rw [List.length_cons] at hk
        rw [show s.sp.toNat - 1 - (k + 1) = s.sp.toNat - 1 - 1 - k by omega]
        exact hfilled k (by omega)
    · rw [List.length_cons] at hc
      rw [hframe c (by omega), afterPush_read_of_ne r hwf (by omega)]

/-! ### CALL and RET -/

/-- Settles O44: the RET reads the byte the CALL saved, which is the CALL's own address. -/
theorem callThenRetReturns : Obligations.CallThenRetReturns := by
  intro r s t u hwf hpc h₁ h₂ hcall hsp hcell
  cases (exec_call_of_room h₁ h₂ r).symm.trans hcall
  have husp : u.sp.toNat = s.sp.toNat - 1 := by rw [hsp, toNat_ofNat_ptr (by omega)]
  have hsaved : (u.mem.read u.sp.toNat).toNat = s.pc.toNat := by
    rw [husp, hcell, Memory.read_write _ _ _ hwf, if_pos rfl, BitVec.toNat_ofNat, Nat.mod_eq_of_lt (by omega)]
  refine ⟨_, exec_ret_of_inside (by omega), ?_, ?_, rfl⟩
  · rw [hsaved]
    exact toNat_ofNat_ptr (by omega)
  · rw [husp, ptr_ofNat_pred_add_one h₁]
    rfl

/-! ### A PUSH over the next instruction -/

/-- Settles O45: the PUSH leaves `pc` at the cell it wrote, and the next step fetches the byte that stands there. -/
theorem pushedByteIsFetchedNext : Obligations.PushedByteIsFetchedNext := by
  intro opc hopc r s hs hwf hcode hat hsp
  have hstep : stepWith opc s = .next (afterPush r s) :=
    (fetchedAs_encodeWith (.push (regByte r)) opc hopc s hs hcode).trans (exec_push_eq_afterPush r (by omega) hsp)
  have hpc : (afterPush r s).pc.toNat = s.pc.toNat + 2 := toNat_pc_add (s := s) (by omega)
  have hcell : (afterPush r s).mem.read (afterPush r s).pc.toNat = s.x[r] := by
    rw [hpc, show s.pc.toNat + 2 = s.sp.toNat - 1 by omega, afterPush_read_pushed r hwf]
  refine ⟨_, hstep, fun hhlt => ?_, fun hillegal => ?_⟩
  · have hfits : (afterPush r s).pc.toNat + 1 ≤ Config.memSize := by simp only [Config.memSize]; omega
    have hheld : holdsBytes (afterPush r s).mem (afterPush r s).pc.toNat (encodeWith opc .hlt) :=
      holdsBytes_cons_iff.2 ⟨hcell.trans hhlt, hfits, rfl⟩
    exact (fetchedAs_encodeWith .hlt opc hopc (afterPush r s) hs hheld).trans (exec_hlt _)
  · rw [← hcell] at hillegal
    have hraise := illegalOpcodeRaisesInvalidOpcode.1 opc (afterPush r s) hs (by omega) hillegal
    rwa [hcell, hpc] at hraise

end Sys2Proof.Machine
end
